-- ==== Sys2Proof/Word.lean ====
section
/-! DEFINITION. The bit patterns of the crunch CORE: store bytes (R20), command words and 32-bit control registers
(R22, R90), and the 64-bit operand registers and VBUF entries (R7, R9, R30). -/

namespace Sys2Proof

/-- One byte of the Buffer Store (R20). -/
abbrev Byte := BitVec 8

/-- A command word, and the width of CMD, STATUS and FAULT_CMD (R22, R90). -/
abbrev CmdWord := BitVec 32

/-- The 64-bit pattern that an operand register or a VBUF entry holds (R9). -/
abbrev Word := BitVec 64

end Sys2Proof
end

