-- ==== Sys2Proof/Syntax.lean ====
section
/-! DEFINITION. The commands of command set CCS-1: one constructor per row of the opcode map (R97). A command carries no
operands: everything it reads comes from the operand registers and VBUF (R90, R96). -/

namespace Sys2Proof

/-- The 21 commands of R97, in the table's order. -/
inductive Instr where
  /-- READ_BITS, 0x10 (R110). -/
  | readBits
  /-- SET_BITS, 0x11 (R115). -/
  | setBits
  /-- READ_BIT, 0x12 (R120). -/
  | readBit
  /-- SET_BIT, 0x13 (R125). -/
  | setBit
  /-- CLEAR_BIT, 0x14 (R130). -/
  | clearBit
  /-- CLEAR_ALL_BITS, 0x18 (R135); the requester's `clear_bits`. -/
  | clearAllBits
  /-- SET_ALL_BITS, 0x19 (R140). -/
  | setAllBits
  /-- FLIP_ALL_BITS, 0x1A (R145); the requester's `flip_bits`. -/
  | flipAllBits
  /-- READ_U16_LE, 0x20 (R166). -/
  | readU16Le
  /-- READ_U16_BE, 0x21 (R167). -/
  | readU16Be
  /-- READ_U32_LE, 0x22 (R168). -/
  | readU32Le
  /-- READ_U32_BE, 0x23 (R169). -/
  | readU32Be
  /-- READ_U64_LE, 0x24 (R170). -/
  | readU64Le
  /-- READ_U64_BE, 0x25 (R171). -/
  | readU64Be
  /-- WRITE_U16_LE, 0x28 (R172). -/
  | writeU16Le
  /-- WRITE_U16_BE, 0x29 (R173). -/
  | writeU16Be
  /-- WRITE_U32_LE, 0x2A (R174). -/
  | writeU32Le
  /-- WRITE_U32_BE, 0x2B (R175). -/
  | writeU32Be
  /-- WRITE_U64_LE, 0x2C (R176). -/
  | writeU64Le
  /-- WRITE_U64_BE, 0x2D (R177). -/
  | writeU64Be
  /-- WRITE_BYTES, 0x30 (R180). -/
  | writeBytes
  deriving DecidableEq, Repr

end Sys2Proof
end

