-- ==== Sys2Proof/Decode.lean ====
section
/-! DEFINITION. The command word (30_encoding.md): a decoder written from the fields of R90 and R92 to R95, which rejects
every other word by name (R98), and after it an encoder written from the table of R97. -/

namespace Sys2Proof

/-- Why a word is illegal (R98). All of them raise the one fault ILLEGAL_COMMAND (R202). -/
inductive Illegal where
  /-- `RSV != 0` (R90). -/
  | reservedBits
  /-- GRP is none of 0x1, 0x2, 0x3 (R92). -/
  | unassignedGroup
  /-- GRP = 0x1 and SUB is 0x5 to 0x7 or 0xB to 0xF (R93). -/
  | unassignedBitOperation
  /-- GRP = 0x2 and WSEL = 0b11 (R94). -/
  | reservedWidth
  /-- GRP = 0x3 and SUB is not 0x0 (R95). -/
  | unassignedCopyOperation
  deriving DecidableEq, Repr

/-- `RSV = w[31:8]` (R90). -/
def rsvField (w : CmdWord) : BitVec 24 := w.extractLsb' 8 24

/-- `OPC = w[7:0]` (R90). -/
def opcField (w : CmdWord) : BitVec 8 := w.extractLsb' 0 8

/-- `GRP = OPC[7:4]` (R92). -/
def grpField (w : CmdWord) : BitVec 4 := (opcField w).extractLsb' 4 4

/-- `SUB = OPC[3:0]` (R92). -/
def subField (w : CmdWord) : BitVec 4 := (opcField w).extractLsb' 0 4

/-- Group 0x1, the bit_codec_engine: SUB selects the operation (R93). -/
def decodeBitGroup (sub : BitVec 4) : Except Illegal Instr :=
  match sub.toNat with
  | 0x0 => .ok .readBits
  | 0x1 => .ok .setBits
  | 0x2 => .ok .readBit
  | 0x3 => .ok .setBit
  | 0x4 => .ok .clearBit
  | 0x8 => .ok .clearAllBits
  | 0x9 => .ok .setAllBits
  | 0xA => .ok .flipAllBits
  | _ => .error .unassignedBitOperation

/-- Group 0x2, the integer_codec_engine: `DIR = SUB[3]`, `WSEL = SUB[2:1]`, `E = SUB[0]`, with E = 1 for BE (R94). -/
def decodeIntegerGroup (sub : BitVec 4) : Except Illegal Instr :=
  match (sub.extractLsb' 3 1).toNat, (sub.extractLsb' 1 2).toNat, (sub.extractLsb' 0 1).toNat with
  | 0, 0b00, 0 => .ok .readU16Le
  | 0, 0b00, _ => .ok .readU16Be
  | 0, 0b01, 0 => .ok .readU32Le
  | 0, 0b01, _ => .ok .readU32Be
  | 0, 0b10, 0 => .ok .readU64Le
  | 0, 0b10, _ => .ok .readU64Be
  | _, 0b00, 0 => .ok .writeU16Le
  | _, 0b00, _ => .ok .writeU16Be
  | _, 0b01, 0 => .ok .writeU32Le
  | _, 0b01, _ => .ok .writeU32Be
  | _, 0b10, 0 => .ok .writeU64Le
  | _, 0b10, _ => .ok .writeU64Be
  | _, _, _ => .error .reservedWidth

/-- Group 0x3, the byte_copy_unit: only SUB = 0x0 is defined (R95). -/
def decodeCopyGroup (sub : BitVec 4) : Except Illegal Instr :=
  if sub = 0x0#4 then .ok .writeBytes else .error .unassignedCopyOperation

/-- `decode(w)` of R99: one of the 21 commands, or ILLEGAL with the reason. -/
def decode (w : CmdWord) : Except Illegal Instr :=
  if rsvField w ≠ 0 then .error .reservedBits
  else
    match (grpField w).toNat with
    | 0x1 => decodeBitGroup (subField w)
    | 0x2 => decodeIntegerGroup (subField w)
    | 0x3 => decodeCopyGroup (subField w)
    | _ => .error .unassignedGroup

/-- The command word of each command, as the table of R97 lists it. -/
def encode (i : Instr) : CmdWord :=
  match i with
  | .readBits => 0x00000010#32
  | .setBits => 0x00000011#32
  | .readBit => 0x00000012#32
  | .setBit => 0x00000013#32
  | .clearBit => 0x00000014#32
  | .clearAllBits => 0x00000018#32
  | .setAllBits => 0x00000019#32
  | .flipAllBits => 0x0000001A#32
  | .readU16Le => 0x00000020#32
  | .readU16Be => 0x00000021#32
  | .readU32Le => 0x00000022#32
  | .readU32Be => 0x00000023#32
  | .readU64Le => 0x00000024#32
  | .readU64Be => 0x00000025#32
  | .writeU16Le => 0x00000028#32
  | .writeU16Be => 0x00000029#32
  | .writeU32Le => 0x0000002A#32
  | .writeU32Be => 0x0000002B#32
  | .writeU64Le => 0x0000002C#32
  | .writeU64Be => 0x0000002D#32
  | .writeBytes => 0x00000030#32

/-- The command that the decoder reads from the low `nbits` bits of `w`; the bits above are 0. A command word is one
32-bit value, transferred whole, so no byte order enters (R91, N21). -/
def decodeTableWord (nbits w : Nat) : Option Instr :=
  match decode (BitVec.ofNat 32 (w % 2 ^ nbits)) with
  | .ok i => some i
  | .error _ => none

end Sys2Proof
end

