-- ==== Sys2Proof/Config.lean ====
section
/-! DEFINITION. The parameters an implementation fixes (R6): the length of the Buffer Store and of VBUF. The spec leaves
no result of a command open, so there is no free value here. -/

namespace Sys2Proof.Config

/-- The two size parameters of R6. A model takes both as arguments; every state of this model carries them (log 1). -/
structure Params where
  /-- BUF_LEN, the byte length of the Buffer Store. -/
  bufLen : Nat
  /-- VBUF_LEN, the number of VBUF entries. -/
  vbufLen : Nat
  deriving DecidableEq, Repr

/-- The ranges R6 gives the parameters: `0 <= BUF_LEN < 2^60` and `VBUF_LEN >= 1`. -/
abbrev Params.Legal (p : Params) : Prop := p.bufLen < 2 ^ 60 ∧ 1 ≤ p.vbufLen

/-- DESIGN CHOICE (log 1, unsafe): the sizes of the one machine that `State.reset` is. The spec fixes none; statements are
made for every size. -/
def resetParams : Params := { bufLen := 64, vbufLen := 8 }

end Sys2Proof.Config
end

