-- ==== Sys2Proof/Machine/Moves.lean ====
section
/-! DEFINITION. The moves of the host (R40 to R45, R230) and what the host gets back from a read. -/

namespace Sys2Proof.Machine

/-- One transaction of the host port (R40). A register number is one of 0 to 15 by its type, because "a register number
outside 0..15 cannot be expressed" (R240). -/
inductive HostMove where
  /-- `REG_WRITE(n, v)` (R41); for n = 0 it issues a command (R23). -/
  | regWrite (n : Fin 16) (v : Word)
  /-- `REG_READ(n)` (R42). -/
  | regRead (n : Fin 16)
  /-- `VBUF_WRITE(j, v)` (R43). -/
  | vbufWrite (j : Nat) (v : Word)
  /-- `VBUF_READ(j)` (R43). -/
  | vbufRead (j : Nat)
  /-- `STORE_WRITE(a, b)` (R44). -/
  | storeWrite (a : Nat) (b : Byte)
  /-- `STORE_READ(a)` (R44). -/
  | storeRead (a : Nat)
  /-- `RESET` (R230). -/
  | reset
  deriving DecidableEq, Repr

/-- What a read transaction returns to the host. -/
inductive Reply where
  /-- What REG_READ or VBUF_READ returns: a 64-bit value, or none for an unwritten register or entry (R33, R42, R43). -/
  | word (v : Option Word)
  /-- What STORE_READ returns (R44). -/
  | byte (b : Byte)
  deriving DecidableEq, Repr

end Sys2Proof.Machine
end

