-- ==== Sys2Proof/Machine/State.lean ====
section
/-! DEFINITION. The state of the crunch CORE (R36), the port's two queues, the reasons a step can stop, and the machine
right after reset. -/

namespace Sys2Proof.Machine

/-- The contents of the Buffer Store as (address, byte) pairs. `Memory.read` and `Memory.write` (Ops.lean) give it its
meaning, `Memory.wf` its canonical form. -/
abbrev Memory := List Host.Cell

/-- The full state: the tuple of R36, its two parameters, and the host port's queues. -/
structure State where
  /-- BUF_LEN, the byte length of the store (R6): a parameter, which no step changes (log 1). -/
  bufLen : Nat
  /-- `S`, the Buffer Store (R20). -/
  mem : Memory
  /-- CMD, register 0: the command word last accepted (R23). -/
  cmd : CmdWord
  /-- STATUS, register 1: FAULT in bit 0, CAUSE in bits 3:1 (R24). -/
  status : CmdWord
  /-- FAULT_CMD, register 2: the word of the command that raised the recorded fault (R25). -/
  faultCmd : CmdWord
  /-- OFFSET, register 3 (R26); none is the spec's "unwritten" (R33, R36). -/
  offset : Option Word
  /-- COUNT, register 4 (R27); none is "unwritten" (R33, R36). -/
  count : Option Word
  /-- DATA, register 5 (R28); none is "unwritten" (R33, R36). -/
  data : Option Word
  /-- ACC, register 6 (R29); none is "unwritten" (R33, R36). -/
  acc : Option Word
  /-- VBUF, entry `V[j]` at place j (R30); none is "unwritten" (R33, R36). Its length is VBUF_LEN, which no step changes. -/
  vbuf : List (Option Word)
  /-- The MODEL's own field (log 3): the host's transactions still to come, oldest first (R40, R75). -/
  pending : List HostMove
  /-- The MODEL's own field (log 3): what the host got back from its reads, oldest first (R241). -/
  replies : List Reply
  deriving DecidableEq, Repr

/-- Why a step stops with a fault. These are NOT the CORE's faults, which are next states (R208): they are the model's own
guard, raised by an access primitive that is asked for something that does not exist (log 7). Safe: no command reaches
one, since every range is checked first (R66, R67, R200). -/
inductive Fault where
  /-- Raised by the store primitives of R11 and R12 for an address `a >= BUF_LEN`: that byte does not exist (R72). Safe. -/
  | absentByte (a : Nat)
  /-- Raised by a VBUF write for an index `j >= VBUF_LEN`: that entry does not exist (R30). Safe. -/
  | absentEntry (j : Nat)
  deriving DecidableEq, Repr

/-- Why a step is refused: the transaction is not a move of the host, "a model refuses it" (R240). -/
inductive Refusal where
  /-- Raised by exec for a command without a meaning: by none in this model. Safe. -/
  | notModelled (mnemonic : String)
  /-- Raised by VBUF_WRITE and VBUF_READ with `j >= VBUF_LEN` (R43, R240). Safe: the spec itself asks for the refusal. -/
  | vbufIndexOutOfRange (j : Nat)
  /-- Raised by STORE_WRITE and STORE_READ with `a >= BUF_LEN` (R44, R240). Safe: the spec itself asks for the refusal. -/
  | storeAddressOutOfRange (a : Nat)
  deriving DecidableEq, Repr

/-- The power-on state (R232, R234): the control registers 0, every operand register and VBUF entry unwritten, the store
holding the launch contents the host supplies. -/
def State.powerOn (p : Config.Params) (launch : Memory) : State where
  bufLen := p.bufLen
  mem := launch
  cmd := 0x00000000#32
  status := 0x00000000#32
  faultCmd := 0x00000000#32
  offset := none
  count := none
  data := none
  acc := none
  vbuf := List.replicate p.vbufLen none
  pending := []
  replies := []

/-- The machine right after reset, at the sizes of log 1 and with the all-zero launch contents of log 2 (both DESIGN
CHOICE, unsafe); every register is at the value R22 and R230 state. -/
def State.reset : State := State.powerOn Config.resetParams []

end Sys2Proof.Machine
end

