-- ==== Sys2Proof/Machine/Flags.lean ====
section
/-! DEFINITION. The fault causes and the fields of STATUS (R24, R201). The CORE has no other flag: no command sets one on
success (R32, N5). -/

namespace Sys2Proof.Machine

/-- The five fault causes of R201. "No fault recorded" (code 0) is no cause, and codes 6 and 7 are never raised. -/
inductive Cause where
  /-- Code 1: the word issued decodes to ILLEGAL (R202). -/
  | illegalCommand
  /-- Code 2: an operand register or VBUF entry the command reads is unwritten (R203). -/
  | uninitializedOperand
  /-- Code 3: COUNT is negative, or over 64 for READ_BITS and SET_BITS (R204). -/
  | badCount
  /-- Code 4: the store range is not inside the store (R205). -/
  | storeOutOfBounds
  /-- Code 5: COUNT exceeds VBUF_LEN (R206). -/
  | vbufOutOfBounds
  deriving DecidableEq, Repr

/-- The code of a cause (R201). -/
def Cause.code (c : Cause) : BitVec 3 :=
  match c with
  | .illegalCommand => 1#3
  | .uninitializedOperand => 2#3
  | .badCount => 3#3
  | .storeOutOfBounds => 4#3
  | .vbufOutOfBounds => 5#3

/-- STATUS with a fault recorded: `(c << 1) | 1`, FAULT in bit 0, CAUSE in bits 3:1, the rest zero (R24, R208). -/
def Cause.statusWord (c : Cause) : CmdWord := (c.code.setWidth 32 <<< 1) ||| 1#32

/-- `STATUS.FAULT`, bit 0: the fault latch (R24, R34). -/
def State.faulted (s : State) : Bool := s.status.getLsbD 0

/-- `STATUS.CAUSE`, bits 3:1 (R24). -/
def State.causeField (s : State) : BitVec 3 := s.status.extractLsb' 1 3

/-- STATUS bits 31:4, reserved (R24). -/
def State.statusReserved (s : State) : BitVec 28 := s.status.extractLsb' 4 28

end Sys2Proof.Machine
end

