-- ==== Sys2Proof/Machine/Ops.lean ====
section
/-! DEFINITION. The named operations over the store, VBUF and the registers; taking a fault (R208) and the one way out of
the faulted state, RESET (R210, R230). -/

namespace Sys2Proof.Machine

/-! ### The store as data -/

/-- What an address that memory does not list reads as: 0x00 (DESIGN CHOICE, log 2). -/
def Memory.unlisted : Byte := 0x00#8

/-- The byte at address `a`. -/
def Memory.read (m : Memory) (a : Nat) : Byte :=
  match m with
  | [] => Memory.unlisted
  | (k, b) :: rest => if k = a then b else Memory.read rest a

/-- Memory with no entry for address `a`. -/
def Memory.erase (m : Memory) (a : Nat) : Memory := m.filter (fun c => !decide (c.1 = a))

/-- Memory with an entry for `a` put before the first larger address. -/
def Memory.insert (m : Memory) (a : Nat) (b : Byte) : Memory :=
  match m with
  | [] => [(a, b)]
  | (k, c) :: rest => if a < k then (a, b) :: (k, c) :: rest else (k, c) :: Memory.insert rest a b

/-- Memory with byte `b` at address `a`. Writing what an unlisted address reads as removes the entry. -/
def Memory.write (m : Memory) (a : Nat) (b : Byte) : Memory :=
  if b = Memory.unlisted then Memory.erase m a else Memory.insert (Memory.erase m a) a b

/-- Every address listed is above `lo`, the addresses rise strictly, and no entry equals what an unlisted address reads as. -/
def Memory.wfAbove (lo : Option Nat) (m : Memory) : Bool :=
  match m with
  | [] => true
  | (k, b) :: rest => (lo.all fun l => decide (l < k)) && !decide (b = Memory.unlisted) && Memory.wfAbove (some k) rest

/-- The canonical form of memory: addresses strictly rising, and no entry equal to what an unlisted address reads as. -/
def Memory.wf (m : Memory) : Bool := Memory.wfAbove none m

/-- No listed address lies outside a store of `n` bytes. -/
def Memory.within (m : Memory) (n : Nat) : Bool := m.all fun c => decide (c.1 < n)

/-! ### Updates of the state, one per field a transaction writes -/

/-- The store replaced. -/
def State.setMem (s : State) (m : Memory) : State := { s with mem := m }

/-- `x[CMD] <- w` (R23). -/
def State.setCmd (s : State) (w : CmdWord) : State := { s with cmd := w }

/-- `x[OFFSET] <- v`, and OFFSET becomes written (R33, R41). -/
def State.setOffset (s : State) (v : Word) : State := { s with offset := some v }

/-- `x[COUNT] <- v`, and COUNT becomes written (R33, R41). -/
def State.setCount (s : State) (v : Word) : State := { s with count := some v }

/-- `x[DATA] <- v`, and DATA becomes written (R33, R41). -/
def State.setData (s : State) (v : Word) : State := { s with data := some v }

/-- `x[ACC] <- v`, and ACC becomes written (R33). -/
def State.setAcc (s : State) (v : Word) : State := { s with acc := some v }

/-- `V[j] <- v`, and the entry becomes written (R33); the length stays. -/
def State.setEntry (s : State) (j : Nat) (v : Word) : State := { s with vbuf := s.vbuf.set j (some v) }

/-- The host's remaining transactions (log 3). -/
def State.setPending (s : State) (ms : List HostMove) : State := { s with pending := ms }

/-- The host gets `r` back (log 3). -/
def State.addReply (s : State) (r : Reply) : State := { s with replies := s.replies ++ [r] }

/-- VBUF_LEN (R6). -/
def State.vbufLen (s : State) : Nat := s.vbuf.length

/-- The parameters this state carries (R6). -/
def State.params (s : State) : Config.Params := { bufLen := s.bufLen, vbufLen := s.vbufLen }

/-! ### Taking a fault, and RESET -/

/-- Fault entry (R208): `STATUS <- (c << 1) | 1`, `FAULT_CMD <- CMD`, and nothing else. -/
def State.takeFault (s : State) (c : Cause) : State := { s with status := c.statusWord, faultCmd := s.cmd }

/-- RESET (R230, R231), the only exit from the faulted state (R210): the control registers 0, every operand register and
VBUF entry unwritten, the store and its length unchanged. The port's queues are the host's, which RESET leaves (log 3). -/
def State.applyReset (s : State) : State :=
  { s with
    cmd := 0x00000000#32
    status := 0x00000000#32
    faultCmd := 0x00000000#32
    offset := none
    count := none
    data := none
    acc := none
    vbuf := List.replicate s.vbufLen none }

/-- What ends a command before its last write: a fault of the CORE, or the model's own guard (log 7). -/
inductive Stop where
  /-- `raise Fault(c)` (R13). -/
  | raise (c : Cause)
  /-- An access to something that does not exist. -/
  | absent (f : Fault)
  deriving DecidableEq, Repr

/-- The end of a command that began in state `s` (R14, R208): it succeeds in the state its accesses left, or it raises a
fault and writes nothing but the fault record. -/
def State.settle (s : State) (r : Except Stop State) : Host.Outcome State Fault Refusal :=
  match r with
  | .ok t => .next t
  | .error (.raise c) => .next (s.takeFault c)
  | .error (.absent f) => .fault f

/-! ### Access primitives (R11, R12) -/

/-- `S[a]`. -/
def State.readByte (s : State) (a : Nat) : Except Stop Byte :=
  if a < s.bufLen then .ok (Memory.read s.mem a) else .error (.absent (.absentByte a))

/-- `S[a] <- b`. -/
def State.writeByte (s : State) (a : Nat) (b : Byte) : Except Stop State :=
  if a < s.bufLen then .ok (s.setMem (Memory.write s.mem a b)) else .error (.absent (.absentByte a))

/-- `MemRead(a, n)` (R11): the bytes from the lowest address up, in no byte order. -/
def State.memRead (s : State) (a n : Nat) : Except Stop (List Byte) :=
  match n with
  | 0 => .ok []
  | k + 1 => do
    let b ← s.readByte a
    let bs ← s.memRead (a + 1) k
    return b :: bs

/-- `MemWrite(a, n, bs)` with `n` the length of `bs` (R11): `bs[i]` to `S[a+i]`, in ascending order. -/
def State.memWrite (s : State) (a : Nat) (bs : List Byte) : Except Stop State :=
  match bs with
  | [] => .ok s
  | b :: rest => do
    let t ← s.writeByte a b
    t.memWrite (a + 1) rest

/-- The bit of a byte at stream position `k mod 8`, MSB first: bit `7 - (k mod 8)` (R8, R61). -/
def streamBit (b : Byte) (k : Nat) : Bool := b.getLsbD (7 - k % 8)

/-- `mask(k) = 1 << (7 - (k mod 8))`, an 8-bit value (R12). -/
def bitMask (k : Nat) : Byte := 1#8 <<< (7 - k % 8)

/-- A byte with the bit at stream position `k mod 8` set or cleared (R12). -/
def byteWithBit (b : Byte) (k : Nat) (v : Bool) : Byte := if v then b ||| bitMask k else b &&& ~~~(bitMask k)

/-- `BitRead(k)` (R12). -/
def State.bitRead (s : State) (k : Nat) : Except Stop Bool := do
  let b ← s.readByte (k / 8)
  return streamBit b k

/-- `BitWrite(k, v)` (R12). -/
def State.bitWrite (s : State) (k : Nat) (v : Bool) : Except Stop State := do
  let b ← s.readByte (k / 8)
  s.writeByte (k / 8) (byteWithBit b k v)

/-- `V[j] <- v` (R13), an access to an entry that exists. -/
def State.writeEntry (s : State) (j : Nat) (v : Word) : Except Stop State :=
  if j < s.vbufLen then .ok (s.setEntry j v) else .error (.absent (.absentEntry j))

/-- `for a in 0 .. n-1: S[a] <- f(S[a])`, in ascending order (R137, R142, R147). -/
def State.mapBytes (s : State) (f : Byte → Byte) (n : Nat) : Except Stop State :=
  match n with
  | 0 => .ok s
  | k + 1 => do
    let t ← s.mapBytes f k
    let b ← t.readByte k
    t.writeByte k (f b)

end Sys2Proof.Machine
end

