-- ==== Sys2Proof/Machine/Operands.lean ====
section
/-! DEFINITION. How a command gets its operands and what it checks of them (R9, R66, R67, R96, R203 to R207). Each check
answers the operand in the form the command uses, or raises its fault. -/

namespace Sys2Proof.Machine

/-- `sint(v)`: the pattern read as two's complement (R9; PRESUMED there, log 5). -/
def sint (v : Word) : Int := v.toInt

/-- The value of an operand register, which must be written (R33, R203). -/
def need (r : Option Word) : Except Stop Word :=
  match r with
  | some v => .ok v
  | none => .error (.raise .uninitializedOperand)

/-- COUNT of READ_BITS and SET_BITS: `0 <= n <= 64`, else BAD_COUNT (R111, R116, R204). -/
def fieldCount (v : Word) : Except Stop Nat :=
  if 0 ≤ sint v ∧ sint v ≤ 64 then .ok (sint v).toNat else .error (.raise .badCount)

/-- COUNT of a command with a vector operand: `n >= 0`, else BAD_COUNT (R161, R163, R181, R204). -/
def vectorCount (v : Word) : Except Stop Nat :=
  if 0 ≤ sint v then .ok (sint v).toNat else .error (.raise .badCount)

/-- The store bounds check of R66, in exact integers: `0 <= off` and `off + len <= lim`, else STORE_OUT_OF_BOUNDS. It
answers `off`. -/
def storeRange (off : Word) (len lim : Nat) : Except Stop Nat :=
  if 0 ≤ sint off ∧ sint off + len ≤ lim then .ok (sint off).toNat else .error (.raise .storeOutOfBounds)

/-- The VBUF bounds check of R67: `n <= VBUF_LEN`, else VBUF_OUT_OF_BOUNDS. -/
def State.vbufRange (s : State) (n : Nat) : Except Stop Unit :=
  if n ≤ s.vbufLen then .ok () else .error (.raise .vbufOutOfBounds)

/-- The values of entries that are all written, else none. -/
def allWritten (es : List (Option Word)) : Option (List Word) :=
  match es with
  | [] => some []
  | none :: _ => none
  | some v :: rest => (allWritten rest).map (v :: ·)

/-- `V[0]` to `V[n-1]`, which must all be written (R163 (5), R181 (5), R203). -/
def State.vectorOperand (s : State) (n : Nat) : Except Stop (List Word) :=
  match allWritten (s.vbuf.take n) with
  | some vs => .ok vs
  | none => .error (.raise .uninitializedOperand)

/-- The operands of a command on one bit: OFFSET written, and the bit inside the store (R121, R126, R131). It answers the
bit offset. -/
def State.bitOperand (s : State) : Except Stop Nat := do
  let off ← need s.offset
  storeRange off 1 (8 * s.bufLen)

/-- The operands of READ_BITS and SET_BITS, whose third operand is the register `third` (ACC or DATA): all three written,
then the count, then the range (R111, R116). It answers bit offset, bit count and the third operand. -/
def State.fieldOperands (s : State) (third : Option Word) : Except Stop (Nat × Nat × Word) := do
  let off ← need s.offset
  let cnt ← need s.count
  let v ← need third
  let n ← fieldCount cnt
  let k ← storeRange off n (8 * s.bufLen)
  return (k, n, v)

/-- The checks shared by every command with a vector operand of elements of `size` bytes: OFFSET and COUNT written, the
count, the store range, the VBUF range (R161, R163 and R181 (1) to (4)). It answers byte offset and element count. -/
def State.vectorRange (s : State) (size : Nat) : Except Stop (Nat × Nat) := do
  let off ← need s.offset
  let cnt ← need s.count
  let n ← vectorCount cnt
  let a ← storeRange off (n * size) s.bufLen
  s.vbufRange n
  return (a, n)

end Sys2Proof.Machine
end

