-- ==== Sys2Proof/Machine/BitCodec.lean ====
section
/-! DEFINITION. The bit_codec_engine (40_bit_codec.md): the eight commands of group 0x1. -/

namespace Sys2Proof.Machine

/-- The loop of R112 over `n` bits from bit offset `k`: `acc <- (acc << 1) | bit`, ascending. The shift discards bit 63
(R10, log 6). -/
def State.readField (s : State) (k n : Nat) (acc : Word) : Except Stop Word :=
  match n with
  | 0 => .ok acc
  | m + 1 => do
    let bit ← s.bitRead k
    s.readField (k + 1) m ((acc <<< 1) ||| (BitVec.ofBool bit).setWidth 64)

/-- The loop of R117 over `n` bits from bit offset `k`, ascending: with `n` bits still to write, bit `n - 1` of `data` goes
to store bit `k`. -/
def State.writeField (s : State) (k n : Nat) (data : Word) : Except Stop State :=
  match n with
  | 0 => .ok s
  | m + 1 => do
    let t ← s.bitWrite k (data.getLsbD m)
    t.writeField (k + 1) m data

/-- READ_BITS (R110 to R114). -/
def execReadBits (s : State) : Host.Outcome State Fault Refusal :=
  s.settle do
    let (k, n, acc) ← s.fieldOperands s.acc
    let v ← s.readField k n acc
    return s.setAcc v

/-- SET_BITS (R115 to R119). -/
def execSetBits (s : State) : Host.Outcome State Fault Refusal :=
  s.settle do
    let (k, n, data) ← s.fieldOperands s.data
    s.writeField k n data

/-- READ_BIT (R120 to R124): ACC is replaced, and need not have been written. -/
def execReadBit (s : State) : Host.Outcome State Fault Refusal :=
  s.settle do
    let k ← s.bitOperand
    let bit ← s.bitRead k
    return s.setAcc ((BitVec.ofBool bit).setWidth 64)

/-- SET_BIT (R125 to R129). -/
def execSetBit (s : State) : Host.Outcome State Fault Refusal :=
  s.settle do
    let k ← s.bitOperand
    s.bitWrite k true

/-- CLEAR_BIT (R130 to R134). -/
def execClearBit (s : State) : Host.Outcome State Fault Refusal :=
  s.settle do
    let k ← s.bitOperand
    s.bitWrite k false

/-- CLEAR_ALL_BITS (R135 to R139): no checks. -/
def execClearAllBits (s : State) : Host.Outcome State Fault Refusal :=
  s.settle (s.mapBytes (fun _ => 0x00#8) s.bufLen)

/-- SET_ALL_BITS (R140 to R144): no checks. -/
def execSetAllBits (s : State) : Host.Outcome State Fault Refusal :=
  s.settle (s.mapBytes (fun _ => 0xFF#8) s.bufLen)

/-- FLIP_ALL_BITS (R145 to R149): no checks; each byte becomes `S[a] ^ 0xFF`. -/
def execFlipAllBits (s : State) : Host.Outcome State Fault Refusal :=
  s.settle (s.mapBytes (fun b => b ^^^ 0xFF#8) s.bufLen)

end Sys2Proof.Machine
end

