-- ==== Sys2Proof/Machine/ByteCopy.lean ====
section
/-! DEFINITION. The byte_copy_unit (43_byte_copy.md): the one command of group 0x3. -/

namespace Sys2Proof.Machine

/-- The loop of R182 over the elements `vs`, from byte address `a`: `S[a] <- V[j][7:0]`, ascending. -/
def State.copyBytes (s : State) (a : Nat) (vs : List Word) : Except Stop State :=
  match vs with
  | [] => .ok s
  | v :: rest => do
    let t ← s.writeByte a (v.setWidth 8)
    t.copyBytes (a + 1) rest

/-- WRITE_BYTES (R180 to R184): the checks of R181, then R182. -/
def execWriteBytes (s : State) : Host.Outcome State Fault Refusal :=
  s.settle do
    let (a, n) ← s.vectorRange 1
    let vs ← s.vectorOperand n
    s.copyBytes a vs

end Sys2Proof.Machine
end

