-- ==== Sys2Proof/Machine/Endian.lean ====
section
/-! DEFINITION. The endian_converter_mux (41_endian_converter_mux.md): ENC and DEC, two pure functions of the width, the
byte order and the value or bytes (R154). -/

namespace Sys2Proof.Machine

/-- The element width W (R7, R94). -/
inductive Width where
  /-- W = 16. -/
  | w16
  /-- W = 32. -/
  | w32
  /-- W = 64. -/
  | w64
  deriving DecidableEq, Repr

/-- The byte order E (R94). -/
inductive ByteOrder where
  /-- Least significant byte at the lowest address. -/
  | le
  /-- Most significant byte at the lowest address. -/
  | be
  deriving DecidableEq, Repr

/-- `B = W/8`, the bytes of one element (R7). -/
def Width.bytes (w : Width) : Nat :=
  match w with
  | .w16 => 2
  | .w32 => 4
  | .w64 => 8

/-- W, the bits of one element (R7). -/
def Width.bits (w : Width) : Nat := 8 * w.bytes

/-- Which byte of a value, counted from the least significant, goes to address `base + i` (R150, R155). -/
def lane (w : Width) (e : ByteOrder) (i : Nat) : Nat :=
  match e with
  | .le => i
  | .be => w.bytes - 1 - i

/-- `trunc_W(v)` (R9), kept as a 64-bit pattern whose upper bits are zero. -/
def truncTo (w : Width) (v : Word) : Word := v &&& BitVec.ofNat 64 (2 ^ w.bits - 1)

/-- `ENC(W, E, v)` (R150): byte i is `(v >> (8*lane)) & 0xFF`. -/
def enc (w : Width) (e : ByteOrder) (v : Word) : List Byte :=
  (List.range w.bytes).map fun i => (v >>> (8 * lane w e i)).setWidth 8

/-- `DEC(W, E, bs)` (R151): the sum over i in [0, B) of `uint(bs[i]) * 2^(8*lane)`. -/
def dec (w : Width) (e : ByteOrder) (bs : List Byte) : Nat :=
  ((List.range w.bytes).map fun i => (bs.getD i 0#8).toNat * 2 ^ (8 * lane w e i)).sum

end Sys2Proof.Machine
end

