-- ==== Sys2Proof/Machine/IntegerCodec.lean ====
section
/-! DEFINITION. The integer_codec_engine (42_integer_codec.md): the two families of R160 to R165, and the twelve commands of
group 0x2. -/

namespace Sys2Proof.Machine

/-- The loop of R162 over `n` elements, from byte address `a` and entry `j`: `V[j] <- zext_64(DEC(W, E, MemRead(a, B)))`. -/
def State.loadElements (s : State) (w : Width) (e : ByteOrder) (a j n : Nat) : Except Stop State :=
  match n with
  | 0 => .ok s
  | m + 1 => do
    let bs ← s.memRead a w.bytes
    let t ← s.writeEntry j (BitVec.ofNat 64 (dec w e bs))
    t.loadElements w e (a + w.bytes) (j + 1) m

/-- The loop of R164 over the elements `vs`, from byte address `a`: `MemWrite(a, B, ENC(W, E, trunc_W(v)))`. -/
def State.storeElements (s : State) (w : Width) (e : ByteOrder) (a : Nat) (vs : List Word) : Except Stop State :=
  match vs with
  | [] => .ok s
  | v :: rest => do
    let t ← s.memWrite a (enc w e (truncTo w v))
    t.storeElements w e (a + w.bytes) rest

/-- `READ_U{W}_{E}`: the checks of R161, then R162. -/
def State.readVector (s : State) (w : Width) (e : ByteOrder) : Except Stop State := do
  let (a, n) ← s.vectorRange w.bytes
  s.loadElements w e a 0 n

/-- `WRITE_U{W}_{E}`: the checks of R163, then R164. -/
def State.writeVector (s : State) (w : Width) (e : ByteOrder) : Except Stop State := do
  let (a, n) ← s.vectorRange w.bytes
  let vs ← s.vectorOperand n
  s.storeElements w e a vs

/-- READ_U16_LE (R166). -/
def execReadU16Le (s : State) : Host.Outcome State Fault Refusal := s.settle (s.readVector .w16 .le)

/-- READ_U16_BE (R167). -/
def execReadU16Be (s : State) : Host.Outcome State Fault Refusal := s.settle (s.readVector .w16 .be)

/-- READ_U32_LE (R168). -/
def execReadU32Le (s : State) : Host.Outcome State Fault Refusal := s.settle (s.readVector .w32 .le)

/-- READ_U32_BE (R169). -/
def execReadU32Be (s : State) : Host.Outcome State Fault Refusal := s.settle (s.readVector .w32 .be)

/-- READ_U64_LE (R170). -/
def execReadU64Le (s : State) : Host.Outcome State Fault Refusal := s.settle (s.readVector .w64 .le)

/-- READ_U64_BE (R171). -/
def execReadU64Be (s : State) : Host.Outcome State Fault Refusal := s.settle (s.readVector .w64 .be)

/-- WRITE_U16_LE (R172). -/
def execWriteU16Le (s : State) : Host.Outcome State Fault Refusal := s.settle (s.writeVector .w16 .le)

/-- WRITE_U16_BE (R173). -/
def execWriteU16Be (s : State) : Host.Outcome State Fault Refusal := s.settle (s.writeVector .w16 .be)

/-- WRITE_U32_LE (R174). -/
def execWriteU32Le (s : State) : Host.Outcome State Fault Refusal := s.settle (s.writeVector .w32 .le)

/-- WRITE_U32_BE (R175). -/
def execWriteU32Be (s : State) : Host.Outcome State Fault Refusal := s.settle (s.writeVector .w32 .be)

/-- WRITE_U64_LE (R176). -/
def execWriteU64Le (s : State) : Host.Outcome State Fault Refusal := s.settle (s.writeVector .w64 .le)

/-- WRITE_U64_BE (R177). -/
def execWriteU64Be (s : State) : Host.Outcome State Fault Refusal := s.settle (s.writeVector .w64 .be)

end Sys2Proof.Machine
end

