-- ==== Sys2Proof/Machine/Dispatch.lean ====
section
/-! DEFINITION. What each command does, once it runs: the arms call the meanings. Whether a command runs at all is decided
where it is issued (HostPort.lean; R23, R209, log 8). -/

namespace Sys2Proof.Machine

def exec (i : Instr) (s : State) : Host.Outcome State Fault Refusal :=
  match i with
  | .readBits => Sys2Proof.Machine.execReadBits s
  | .setBits => Sys2Proof.Machine.execSetBits s
  | .readBit => Sys2Proof.Machine.execReadBit s
  | .setBit => Sys2Proof.Machine.execSetBit s
  | .clearBit => Sys2Proof.Machine.execClearBit s
  | .clearAllBits => Sys2Proof.Machine.execClearAllBits s
  | .setAllBits => Sys2Proof.Machine.execSetAllBits s
  | .flipAllBits => Sys2Proof.Machine.execFlipAllBits s
  | .readU16Le => Sys2Proof.Machine.execReadU16Le s
  | .readU16Be => Sys2Proof.Machine.execReadU16Be s
  | .readU32Le => Sys2Proof.Machine.execReadU32Le s
  | .readU32Be => Sys2Proof.Machine.execReadU32Be s
  | .readU64Le => Sys2Proof.Machine.execReadU64Le s
  | .readU64Be => Sys2Proof.Machine.execReadU64Be s
  | .writeU16Le => Sys2Proof.Machine.execWriteU16Le s
  | .writeU16Be => Sys2Proof.Machine.execWriteU16Be s
  | .writeU32Le => Sys2Proof.Machine.execWriteU32Le s
  | .writeU32Be => Sys2Proof.Machine.execWriteU32Be s
  | .writeU64Le => Sys2Proof.Machine.execWriteU64Le s
  | .writeU64Be => Sys2Proof.Machine.execWriteU64Be s
  | .writeBytes => Sys2Proof.Machine.execWriteBytes s

end Sys2Proof.Machine
end

