-- ==== Sys2Proof/Machine/HostPort.lean ====
section
/-! DEFINITION. The host port (R22, R23, R31, R40 to R45, R209, R230, R240): what one transaction does. -/

namespace Sys2Proof.Machine

/-- What a register number names (R22). -/
inductive Reg where
  | cmd
  | status
  | faultCmd
  | offset
  | count
  | data
  | acc
  | reserved
  deriving DecidableEq, Repr

/-- The register file's numbering (R22): 7 to 15 are reserved. -/
def regOfNumber (n : Fin 16) : Reg :=
  match n.val with
  | 0 => .cmd
  | 1 => .status
  | 2 => .faultCmd
  | 3 => .offset
  | 4 => .count
  | 5 => .data
  | 6 => .acc
  | _ => .reserved

/-- Run the command of the word `w`, which CMD already holds: the decoded command, or ILLEGAL_COMMAND (R23, R202). -/
def State.runWord (s : State) (w : CmdWord) : Host.Outcome State Fault Refusal :=
  match decode w with
  | .ok i => exec i s
  | .error _ => .next (s.takeFault .illegalCommand)

/-- A host write to CMD (R23, R209): dropped while `STATUS.FAULT = 1`; else `v[31:0]` goes to CMD and its command runs.
Bits `v[63:32]` are ignored. -/
def State.issue (s : State) (v : Word) : Host.Outcome State Fault Refusal :=
  if s.faulted then .next s
  else (s.setCmd (v.setWidth 32)).runWord (v.setWidth 32)

/-- `REG_WRITE(n, v)` (R41): CMD issues; OFFSET, COUNT, DATA and ACC are written; STATUS, FAULT_CMD and the reserved
numbers ignore the write (R24, R25, R31). -/
def State.writeRegister (s : State) (n : Fin 16) (v : Word) : Host.Outcome State Fault Refusal :=
  match regOfNumber n with
  | .cmd => s.issue v
  | .offset => .next (s.setOffset v)
  | .count => .next (s.setCount v)
  | .data => .next (s.setData v)
  | .acc => .next (s.setAcc v)
  | .status => .next s
  | .faultCmd => .next s
  | .reserved => .next s

/-- What `REG_READ(n)` returns (R42): a 32-bit register zero-extended, an operand register's value or none, and 0 for a
reserved number (R31). -/
def State.readRegister (s : State) (n : Fin 16) : Option Word :=
  match regOfNumber n with
  | .cmd => some (s.cmd.setWidth 64)
  | .status => some (s.status.setWidth 64)
  | .faultCmd => some (s.faultCmd.setWidth 64)
  | .offset => s.offset
  | .count => s.count
  | .data => s.data
  | .acc => s.acc
  | .reserved => some 0#64

/-- What `VBUF_READ(j)` returns for an entry that exists (R43): its value, or none. -/
def State.readEntry (s : State) (j : Nat) : Option Word := s.vbuf.getD j none

/-- One transaction of the host (R40 to R45, R230). An index out of range is no move of the host and is refused (R240). -/
def State.transact (s : State) (m : HostMove) : Host.Outcome State Fault Refusal :=
  match m with
  | .regWrite n v => s.writeRegister n v
  | .regRead n => .next (s.addReply (.word (s.readRegister n)))
  | .vbufWrite j v => if j < s.vbufLen then .next (s.setEntry j v) else .refused (.vbufIndexOutOfRange j)
  | .vbufRead j =>
    if j < s.vbufLen then .next (s.addReply (.word (s.readEntry j))) else .refused (.vbufIndexOutOfRange j)
  | .storeWrite a b =>
    if a < s.bufLen then .next (s.setMem (Memory.write s.mem a b)) else .refused (.storeAddressOutOfRange a)
  | .storeRead a =>
    if a < s.bufLen then .next (s.addReply (.byte (Memory.read s.mem a))) else .refused (.storeAddressOutOfRange a)
  | .reset => .next s.applyReset

/-- The transaction that issues the 32-bit word `w` (R91, R100 `issue`): `REG_WRITE(0, w)`. -/
def issueMove (w : CmdWord) : HostMove := .regWrite 0 (w.setWidth 64)

/-- The machine's next step: the host's oldest pending transaction (R75), or none, when the CORE is idle and changes
nothing (R219). -/
def State.advance (s : State) : Host.Outcome State Fault Refusal :=
  match s.pending with
  | [] => .next s
  | m :: rest => (s.setPending rest).transact m

/-- The low `nbits` bits of `w` as the word that the host issues next, before its other pending transactions (log 3). -/
def State.placeWord (s : State) (nbits w : Nat) : State :=
  s.setPending (issueMove (BitVec.ofNat 32 (w % 2 ^ nbits)) :: s.pending)

end Sys2Proof.Machine
end

