-- ==== Sys2Proof/Machine/Step.lean ====
section
/-! DEFINITION. One step of the machine, and how a command comes to be the next one that runs. -/

namespace Sys2Proof.Machine

/-- One step: one transaction of the host, or none while the CORE is idle (R45, R75, R219). -/
def step (s : State) : Host.Outcome State Fault Refusal := s.advance

/-- `s` with a command word placed where the next step takes it: as the host's next write to CMD. The CORE fetches nothing
(R21), so this stands for the host's REG_WRITE (log 3). Nothing else changes: in a faulted state the step drops the word,
as R209 says (log 8). -/
def State.withFetchWord (s : State) (nbits w : Nat) : State := s.placeWord nbits w

end Sys2Proof.Machine
end

