-- ==== Sys2Proof/Machine/Assembler.lean ====
section
/-! DEFINITION. The host assembler syntax (R100) and the pseudo-instructions (R101): how a line of a host program spells
host moves. It is no part of the machine's step; it only names transactions (D25). -/

namespace Sys2Proof.Machine

/-- The mnemonic of each command (R97). -/
def mnemonicOf (i : Instr) : String :=
  match i with
  | .readBits => "READ_BITS"
  | .setBits => "SET_BITS"
  | .readBit => "READ_BIT"
  | .setBit => "SET_BIT"
  | .clearBit => "CLEAR_BIT"
  | .clearAllBits => "CLEAR_ALL_BITS"
  | .setAllBits => "SET_ALL_BITS"
  | .flipAllBits => "FLIP_ALL_BITS"
  | .readU16Le => "READ_U16_LE"
  | .readU16Be => "READ_U16_BE"
  | .readU32Le => "READ_U32_LE"
  | .readU32Be => "READ_U32_BE"
  | .readU64Le => "READ_U64_LE"
  | .readU64Be => "READ_U64_BE"
  | .writeU16Le => "WRITE_U16_LE"
  | .writeU16Be => "WRITE_U16_BE"
  | .writeU32Le => "WRITE_U32_LE"
  | .writeU32Be => "WRITE_U32_BE"
  | .writeU64Le => "WRITE_U64_LE"
  | .writeU64Be => "WRITE_U64_BE"
  | .writeBytes => "WRITE_BYTES"

/-- The commands in the order of R97. -/
def allInstrs : List Instr :=
  [.readBits, .setBits, .readBit, .setBit, .clearBit, .clearAllBits, .setAllBits, .flipAllBits,
    .readU16Le, .readU16Be, .readU32Le, .readU32Be, .readU64Le, .readU64Be,
    .writeU16Le, .writeU16Be, .writeU32Le, .writeU32Be, .writeU64Le, .writeU64Be, .writeBytes]

/-- The command a mnemonic names (R97). -/
def instrOfMnemonic (cs : List Char) : Option Instr := allInstrs.find? fun i => decide ((mnemonicOf i).toList = cs)

/-! ### Pseudo-instructions (R101) -/

/-- The integer read command of a width and a byte order (R94). -/
def readCommand (w : Width) (e : ByteOrder) : Instr :=
  match w, e with
  | .w16, .le => .readU16Le
  | .w16, .be => .readU16Be
  | .w32, .le => .readU32Le
  | .w32, .be => .readU32Be
  | .w64, .le => .readU64Le
  | .w64, .be => .readU64Be

/-- The integer write command of a width and a byte order (R94). -/
def writeCommand (w : Width) (e : ByteOrder) : Instr :=
  match w, e with
  | .w16, .le => .writeU16Le
  | .w16, .be => .writeU16Be
  | .w32, .le => .writeU32Le
  | .w32, .be => .writeU32Be
  | .w64, .le => .writeU64Le
  | .w64, .be => .writeU64Be

/-- The pseudo-instructions of R101, with their operands as 64-bit patterns. -/
inductive Pseudo where
  | readBits (off n : Word)
  | readBitsClean (off n : Word)
  | setBits (off data n : Word)
  | readBit (off : Word)
  | setBit (off : Word)
  | clearBit (off : Word)
  | clearAllBits
  | setAllBits
  | flipAllBits
  | readInteger (w : Width) (e : ByteOrder) (off n : Word)
  | writeInteger (w : Width) (e : ByteOrder) (off : Word) (vs : List Word)
  | writeBytes (off : Word) (vs : List Word)
  deriving DecidableEq, Repr

/-- `issue <MNEMONIC>` (R100). -/
def issueInstr (i : Instr) : HostMove := issueMove (encode i)

/-- `wreg OFFSET, v` (R100). -/
def wregOffset (v : Word) : HostMove := .regWrite 3 v

/-- `wreg COUNT, v` (R100). -/
def wregCount (v : Word) : HostMove := .regWrite 4 v

/-- `wreg DATA, v` (R100). -/
def wregData (v : Word) : HostMove := .regWrite 5 v

/-- `wreg ACC, v` (R100). -/
def wregAcc (v : Word) : HostMove := .regWrite 6 v

/-- `wvec j, v` for consecutive j (R101). -/
def wvecFrom (j : Nat) (vs : List Word) : List HostMove :=
  match vs with
  | [] => []
  | v :: rest => .vbufWrite j v :: wvecFrom (j + 1) rest

/-- The expansion of a write command's pseudo-instruction; a list longer than VBUF cannot be expanded (R101). -/
def expandWrite (vbufLen : Nat) (i : Instr) (off : Word) (vs : List Word) : Option (List HostMove) :=
  if vs.length ≤ vbufLen then
    some (wvecFrom 0 vs ++ [wregOffset off, wregCount (BitVec.ofNat 64 vs.length), issueInstr i])
  else none

/-- The transactions a pseudo-instruction expands into, in order (R101). -/
def expandPseudo (vbufLen : Nat) (p : Pseudo) : Option (List HostMove) :=
  match p with
  | .readBits off n => some [wregOffset off, wregCount n, issueInstr .readBits]
  | .readBitsClean off n => some [wregAcc 0#64, wregOffset off, wregCount n, issueInstr .readBits]
  | .setBits off data n => some [wregOffset off, wregData data, wregCount n, issueInstr .setBits]
  | .readBit off => some [wregOffset off, issueInstr .readBit]
  | .setBit off => some [wregOffset off, issueInstr .setBit]
  | .clearBit off => some [wregOffset off, issueInstr .clearBit]
  | .clearAllBits => some [issueInstr .clearAllBits]
  | .setAllBits => some [issueInstr .setAllBits]
  | .flipAllBits => some [issueInstr .flipAllBits]
  | .readInteger w e off n => some [wregOffset off, wregCount n, issueInstr (readCommand w e)]
  | .writeInteger w e off vs => expandWrite vbufLen (writeCommand w e) off vs
  | .writeBytes off vs => expandWrite vbufLen .writeBytes off vs

/-! ### Numbers and tokens (R100; the token separators are log 9) -/

/-- The value of a digit, up to base 16. -/
def digitValue (c : Char) : Option Nat :=
  if '0' ≤ c ∧ c ≤ '9' then some (c.toNat - '0'.toNat)
  else if 'a' ≤ c ∧ c ≤ 'f' then some (c.toNat - 'a'.toNat + 10)
  else if 'A' ≤ c ∧ c ≤ 'F' then some (c.toNat - 'A'.toNat + 10)
  else none

/-- Digits in a base, after those already read as `acc`. -/
def readDigits (base acc : Nat) (cs : List Char) : Option Nat :=
  match cs with
  | [] => some acc
  | c :: rest =>
    match digitValue c with
    | some d => if d < base then readDigits base (acc * base + d) rest else none
    | none => none

/-- "A number is written in decimal, in hex after `0x` or in binary after `0b`" (R100). -/
def readNat (cs : List Char) : Option Nat :=
  match cs with
  | [] => none
  | '0' :: 'x' :: c :: rest => readDigits 16 0 (c :: rest)
  | '0' :: 'b' :: c :: rest => readDigits 2 0 (c :: rest)
  | c :: rest => readDigits 10 0 (c :: rest)

/-- A number as a 64-bit pattern; "a negative decimal `-d` means the 64-bit two's-complement pattern of `-d`" (R100). A
number with no 64-bit pattern is none (log 9). -/
def readWord (cs : List Char) : Option Word :=
  match cs with
  | '-' :: c :: rest =>
    (readDigits 10 0 (c :: rest)).bind fun d => if d ≤ 2 ^ 63 then some (BitVec.ofInt 64 (-(d : Int))) else none
  | _ => (readNat cs).bind fun v => if v < 2 ^ 64 then some (BitVec.ofNat 64 v) else none

/-- A piece of a line. -/
inductive Token where
  | text (cs : List Char)
  | comma
  | openList
  | closeList
  deriving DecidableEq, Repr

/-- The text gathered so far (last character first), put before the tokens that follow it. -/
def flushText (gathered : List Char) (rest : List Token) : List Token :=
  if gathered.isEmpty then rest else .text gathered.reverse :: rest

/-- The tokens of a line; "`;` starts a comment that runs to the end of the line" (R100). -/
def tokenize (gathered cs : List Char) : List Token :=
  match cs with
  | [] => flushText gathered []
  | c :: rest =>
    if c = ';' then flushText gathered []
    else if c = ' ' ∨ c = '\t' then flushText gathered (tokenize [] rest)
    else if c = ',' then flushText gathered (.comma :: tokenize [] rest)
    else if c = '[' then flushText gathered (.openList :: tokenize [] rest)
    else if c = ']' then flushText gathered (.closeList :: tokenize [] rest)
    else tokenize (c :: gathered) rest

/-- A register's name or number 0-15 (R100). -/
def readRegisterName (cs : List Char) : Option (Fin 16) :=
  if cs = "CMD".toList then some 0
  else if cs = "STATUS".toList then some 1
  else if cs = "FAULT_CMD".toList then some 2
  else if cs = "OFFSET".toList then some 3
  else if cs = "COUNT".toList then some 4
  else if cs = "DATA".toList then some 5
  else if cs = "ACC".toList then some 6
  else (readNat cs).bind fun n => if h : n < 16 then some ⟨n, h⟩ else none

/-- The elements of a list operand after its opening bracket, up to the closing bracket that ends the line. DESIGN CHOICE
(log 9): an empty list and a comma before the closing bracket, two forms R101 does not give, are read, the comma as if it
were not there. -/
def readElements (ts : List Token) : Option (List Word) :=
  match ts with
  | [.closeList] => some []
  | [.text v, .closeList] => (readWord v).map ([·])
  | .text v :: .comma :: rest => (readWord v).bind fun w => (readElements rest).map (w :: ·)
  | _ => none

/-- What `issue` takes: a mnemonic, or `0x<hex>` (R100). -/
def readIssue (cs : List Char) : Option HostMove :=
  match instrOfMnemonic cs with
  | some i => some (issueInstr i)
  | none =>
    match cs with
    | '0' :: 'x' :: _ => (readWord cs).map (.regWrite 0 ·)
    | _ => none

/-- The width and byte order of an integer pseudo-instruction's name after `read_u` or `write_u` (R101). -/
def readShape (cs : List Char) : Option (Width × ByteOrder) :=
  if cs = "16_le".toList then some (.w16, .le)
  else if cs = "16_be".toList then some (.w16, .be)
  else if cs = "32_le".toList then some (.w32, .le)
  else if cs = "32_be".toList then some (.w32, .be)
  else if cs = "64_le".toList then some (.w64, .le)
  else if cs = "64_be".toList then some (.w64, .be)
  else none

/-- A pseudo-instruction without operands, aliases included (R101). -/
def readPseudo0 (name : List Char) : Option Pseudo :=
  if name = "clear_all_bits".toList ∨ name = "clear_bits".toList then some .clearAllBits
  else if name = "set_all_bits".toList then some .setAllBits
  else if name = "flip_all_bits".toList ∨ name = "flip_bits".toList then some .flipAllBits
  else none

/-- A pseudo-instruction with one number (R101). -/
def readPseudo1 (name : List Char) (a : Word) : Option Pseudo :=
  if name = "read_bit".toList then some (.readBit a)
  else if name = "set_bit".toList then some (.setBit a)
  else if name = "clear_bit".toList then some (.clearBit a)
  else none

/-- A pseudo-instruction with two numbers (R101). -/
def readPseudo2 (name : List Char) (a b : Word) : Option Pseudo :=
  if name = "read_bits".toList then some (.readBits a b)
  else if name = "read_bits_clean".toList then some (.readBitsClean a b)
  else if name.take 6 = "read_u".toList then (readShape (name.drop 6)).map fun (w, e) => .readInteger w e a b
  else none

/-- A pseudo-instruction with an offset and a list (R101). -/
def readPseudoList (name : List Char) (a : Word) (vs : List Word) : Option Pseudo :=
  if name = "write_bytes".toList then some (.writeBytes a vs)
  else if name.take 7 = "write_u".toList then (readShape (name.drop 7)).map fun (w, e) => .writeInteger w e a vs
  else none

/-- One transaction of R100, from its keyword and its operands. DESIGN CHOICE (log 9): a VBUF index, a store address, a
register number and a byte are not negative, so a line such as `rvec -1` spells no transaction at all; an index or address
too large spells one that is refused when it is taken (R240). -/
def readTransaction (name : List Char) (operands : List Token) : Option HostMove :=
  match operands with
  | [] => if name = "reset".toList then some .reset else none
  | [.text a] =>
    if name = "rreg".toList then (readRegisterName a).map .regRead
    else if name = "rvec".toList then (readNat a).map .vbufRead
    else if name = "rmem".toList then (readNat a).map .storeRead
    else if name = "issue".toList then readIssue a
    else none
  | [.text a, .comma, .text b] =>
    if name = "wreg".toList then (readRegisterName a).bind fun n => (readWord b).map (.regWrite n ·)
    else if name = "wvec".toList then (readNat a).bind fun j => (readWord b).map (.vbufWrite j ·)
    else if name = "wmem".toList then
      (readNat a).bind fun k => (readNat b).bind fun v => if v < 256 then some (.storeWrite k (BitVec.ofNat 8 v)) else none
    else none
  | _ => none

/-- One pseudo-instruction of R101, from its name and its operands. -/
def readPseudo (name : List Char) (operands : List Token) : Option Pseudo :=
  match operands with
  | [] => readPseudo0 name
  | [.text a] => (readWord a).bind fun x => readPseudo1 name x
  | [.text a, .comma, .text b] => (readWord a).bind fun x => (readWord b).bind fun y => readPseudo2 name x y
  | [.text a, .comma, .text b, .comma, .text c] =>
    if name = "set_bits".toList then
      (readWord a).bind fun x => (readWord b).bind fun y => (readWord c).map fun z => .setBits x y z
    else none
  | .text a :: .comma :: .openList :: rest =>
    (readWord a).bind fun x => (readElements rest).bind fun vs => readPseudoList name x vs
  | _ => none

/-- The host moves one line of a host program spells: one transaction (R100), a pseudo-instruction's expansion (R101), or
nothing for a blank or comment line; none for a line that is neither. -/
def assembleLine (vbufLen : Nat) (line : List Char) : Option (List HostMove) :=
  match tokenize [] line with
  | [] => some []
  | .text name :: operands =>
    match readTransaction name operands with
    | some m => some [m]
    | none => (readPseudo name operands).bind fun p => expandPseudo vbufLen p
  | _ => none

end Sys2Proof.Machine
end

