-- ==== Sys2Proof/WellFormed.lean ====
section
/-! DEFINITION. What the spec admits as input. A command has no operand field (R90), so every term of `Instr` is well
formed; the checks the spec makes on input are those on a host transaction's index (R45, R240). -/

namespace Sys2Proof

/-- Every command is well formed: it has no operand that could be out of range (R90). -/
def Instr.wellFormed (i : Instr) : Bool :=
  match i with
  | .readBits | .setBits | .readBit | .setBit | .clearBit | .clearAllBits | .setAllBits | .flipAllBits => true
  | .readU16Le | .readU16Be | .readU32Le | .readU32Be | .readU64Le | .readU64Be => true
  | .writeU16Le | .writeU16Be | .writeU32Le | .writeU32Be | .writeU64Le | .writeU64Be => true
  | .writeBytes => true

/-- Whether a transaction is a move of the host (R45): a VBUF index below VBUF_LEN, a store address below BUF_LEN, and no
condition on the rest (R240). -/
def Machine.HostMove.wellFormed (p : Config.Params) (m : Machine.HostMove) : Bool :=
  match m with
  | .regWrite _ _ => true
  | .regRead _ => true
  | .vbufWrite j _ => decide (j < p.vbufLen)
  | .vbufRead j => decide (j < p.vbufLen)
  | .storeWrite a _ => decide (a < p.bufLen)
  | .storeRead a => decide (a < p.bufLen)
  | .reset => true

end Sys2Proof
end

