-- ==== Sys2Proof/Safety.lean ====
section
/-! DEFINITION. What counts as a good state and a good run, in the terms claims use: which fault a command may record
(R201, R207), the invariant of every reachable state, CLEAN_ENTRY (R234) and the successful end of a run (R243). -/

namespace Sys2Proof

/-- The causes R207 lists for a command, decode aside. -/
def Instr.mayRaise (i : Instr) (c : Machine.Cause) : Bool :=
  match i with
  | .readBits | .setBits =>
    decide (c = .uninitializedOperand) || decide (c = .badCount) || decide (c = .storeOutOfBounds)
  | .readBit | .setBit | .clearBit => decide (c = .uninitializedOperand) || decide (c = .storeOutOfBounds)
  | .clearAllBits | .setAllBits | .flipAllBits => false
  | .readU16Le | .readU16Be | .readU32Le | .readU32Be | .readU64Le | .readU64Be
  | .writeU16Le | .writeU16Be | .writeU32Le | .writeU32Be | .writeU64Le | .writeU64Be
  | .writeBytes =>
    decide (c = .uninitializedOperand) || decide (c = .badCount) || decide (c = .storeOutOfBounds) ||
      decide (c = .vbufOutOfBounds)

namespace Machine

/-! ### The views of the store that claims use (R20, R61) -/

/-- `S[a]`. -/
def State.byteAt (s : State) (a : Nat) : Byte := Memory.read s.mem a

/-- Bit offset `k` of the store: bit `7 - (k mod 8)` of byte `S[k div 8]` (R8, R20, R61). -/
def State.bitAt (s : State) (k : Nat) : Bool := (s.byteAt (k / 8)).getLsbD (7 - k % 8)

/-- The `n`-bit field at bit offset `k`, its first bit the most significant (R62; F of R112). -/
def State.fieldAt (s : State) (k n : Nat) : Nat := ∑ i ∈ Finset.range n, (s.bitAt (k + i)).toNat * 2 ^ (n - 1 - i)

/-- The value of the `B` bytes from address `a`, least significant first (R151, LE). -/
def State.leValue (s : State) (a B : Nat) : Nat := ∑ i ∈ Finset.range B, (s.byteAt (a + i)).toNat * 2 ^ (8 * i)

/-- The value of the `B` bytes from address `a`, most significant first (R151, BE). -/
def State.beValue (s : State) (a B : Nat) : Nat :=
  ∑ i ∈ Finset.range B, (s.byteAt (a + i)).toNat * 2 ^ (8 * (B - 1 - i))

/-! ### When the checks of a command pass, in the terms of R66, R67 and R207 -/

/-- READ_BIT, SET_BIT, CLEAR_BIT pass their checks with bit offset `k` (R121, R126, R131). -/
def State.BitReady (s : State) (k : Nat) : Prop :=
  ∃ off : Word, s.offset = some off ∧ off.toInt = (k : Int) ∧ k < 8 * s.bufLen

/-- READ_BITS and SET_BITS pass their checks on OFFSET and COUNT with bit offset `k` and bit count `n` (R111, R116). -/
def State.FieldReady (s : State) (k n : Nat) : Prop :=
  ∃ off cnt : Word, s.offset = some off ∧ s.count = some cnt ∧ off.toInt = (k : Int) ∧ cnt.toInt = (n : Int) ∧
    n ≤ 64 ∧ k + n ≤ 8 * s.bufLen

/-- A command with a vector operand of `size`-byte elements passes its checks (1) to (4) with byte offset `a` and count `n`
(R161, R163, R181). -/
def State.VectorReady (s : State) (size a n : Nat) : Prop :=
  ∃ off cnt : Word, s.offset = some off ∧ s.count = some cnt ∧ off.toInt = (a : Int) ∧ cnt.toInt = (n : Int) ∧
    a + n * size ≤ s.bufLen ∧ n ≤ s.vbuf.length

/-- `V[0]` to `V[n-1]` are written and hold `vs`, where `n` is the length of `vs` (R163 (5), R181 (5)). -/
def State.EntriesHold (s : State) (vs : List Word) : Prop := s.vbuf.take vs.length = vs.map some

/-! ### The fault record, the invariant, and runs -/

/-- Whether issuing the word `w` can record cause `c` (R201, R207). -/
def wordMayRecord (w : CmdWord) (c : Cause) : Bool :=
  match decode w with
  | .ok i => i.mayRaise c
  | .error _ => decide (c = .illegalCommand)

/-- The fault record is one the CORE can hold: none at all, STATUS and FAULT_CMD both zero (R24, R25), or a cause that the
word in FAULT_CMD can raise, with CMD still holding that word (R208, R209). -/
def State.FaultRecordLegal (s : State) : Prop :=
  (s.status = 0 ∧ s.faultCmd = 0) ∨
    ∃ c : Cause, s.status = c.statusWord ∧ s.faultCmd = s.cmd ∧ wordMayRecord s.cmd c = true

/-- What holds of every state a run reaches. -/
structure State.Inv (s : State) : Prop where
  /-- The parameters are in the ranges of R6. -/
  params : s.params.Legal
  /-- Memory is in its canonical form. -/
  memWf : Memory.wf s.mem = true
  /-- Memory lists no byte outside the store (R11, R72). -/
  memWithin : Memory.within s.mem s.bufLen = true
  /-- The fault record is legal. -/
  record : s.FaultRecordLegal

/-- CLEAN_ENTRY (R234): the state after RESET with the given launch bytes and parameters in range. What the host still has
to send is free. -/
def State.CleanEntry (s : State) : Prop :=
  ∃ (p : Config.Params) (launch : Memory) (moves : List HostMove),
    p.Legal ∧ Memory.wf launch = true ∧ Memory.within launch p.bufLen = true ∧
      s = (State.powerOn p launch).setPending moves

/-- Whether a run of `k` more transactions ends successfully (R243): no transaction is refused, no RESET occurs while a
fault is recorded, and no fault is recorded at the end. -/
def State.endsWell (s : State) (k : Nat) : Bool :=
  match k with
  | 0 => !s.faulted
  | n + 1 =>
    if s.faulted && decide (s.pending.head? = some .reset) then false
    else
      match step s with
      | .next t => t.endsWell n
      | .fault _ => false
      | .refused _ => false

/-- The run of all the host's pending transactions ends successfully (R243). -/
def State.runSucceeds (s : State) : Bool := s.endsWell s.pending.length

end Machine

end Sys2Proof
end

