-- ==== Sys2Proof/Certificates/Slice0/Obligations.lean ====
section
/-! DEFINITION. The statements for the provers. Where a statement reads OFFSET or COUNT as a signed number it rests on
two's complement, which R9 marks "from general knowledge, not in source" (log 5); where it speaks of `pending` or `replies`
it speaks of the model's own port fields (log 3). The spec runs no command while a fault is recorded (R209), and neither does
`step`; `exec` does not test the latch, so what a statement about `exec` says of a state with a fault recorded is the model's
choice (log 8). Where a statement speaks of the end of a run, `endsWell` is the model's reading of R243 (log 12). -/

open Sys2Proof Sys2Proof.Machine

/-! ### Reset, and the host port -/

/-- R230, R231: RESET, in every state, faulted or not. -/
def Obligations.ResetClearsRegistersAndKeepsStore : Prop :=
  ∀ (s : State) (rest : List HostMove), s.pending = .reset :: rest →
    ∃ t, step s = .next t ∧ t.faulted = false ∧
      t = { s with
        cmd := 0x00000000#32
        status := 0x00000000#32
        faultCmd := 0x00000000#32
        offset := none
        count := none
        data := none
        acc := none
        vbuf := List.replicate s.vbuf.length none
        pending := rest }

/-- R232, R234: the power-on state, for every size and every launch contents. That `State.reset` has 64 bytes of zeros and
8 entries is the model's choice (log 1, log 2). -/
def Obligations.PowerOnRegistersAndStore : Prop :=
  (∀ (p : Config.Params) (launch : Memory),
    (State.powerOn p launch).cmd = 0x00000000#32 ∧ (State.powerOn p launch).status = 0x00000000#32 ∧
    (State.powerOn p launch).faultCmd = 0x00000000#32 ∧ (State.powerOn p launch).offset = none ∧
    (State.powerOn p launch).count = none ∧ (State.powerOn p launch).data = none ∧
    (State.powerOn p launch).acc = none ∧ (State.powerOn p launch).vbuf.length = p.vbufLen ∧
    (∀ j < p.vbufLen, (State.powerOn p launch).vbuf[j]? = some none) ∧ (State.powerOn p launch).bufLen = p.bufLen ∧
    ∀ a, (State.powerOn p launch).byteAt a = Memory.read launch a) ∧
  State.reset = State.powerOn { bufLen := 64, vbufLen := 8 } []

/-- R234: every state that meets CLEAN_ENTRY meets the invariant, and `State.reset` meets CLEAN_ENTRY (at the sizes and
launch contents of log 1 and log 2, the model's choice). -/
def Obligations.CleanEntryMeetsInvariant : Prop :=
  (∀ s : State, s.CleanEntry → s.Inv) ∧ State.reset.CleanEntry

/-- R23, R75: a step whose transaction writes a legal word to CMD, with no fault recorded, is `exec` of the decoded
command, after the transaction is taken and CMD holds the word. Bits 63:32 of the write do not matter. -/
def Obligations.StepRunsTheDecodedCommand : Prop :=
  ∀ (s : State) (v : Word) (rest : List HostMove) (i : Instr), s.pending = .regWrite 0 v :: rest →
    s.status.getLsbD 0 = false → decode (v.extractLsb' 0 32) = .ok i →
    step s = exec i { s with pending := rest, cmd := v.extractLsb' 0 32 }

/-- R98, R202: which words are illegal, both as the complement of the table and as the ranges R98 lists, and what issuing
one does. -/
def Obligations.IllegalWordsRaiseIllegalCommand : Prop :=
  ∀ w : CmdWord,
    ((∃ e, decode w = .error e) ↔
      w ∉ ([0x10#32, 0x11#32, 0x12#32, 0x13#32, 0x14#32, 0x18#32, 0x19#32, 0x1A#32, 0x20#32, 0x21#32, 0x22#32, 0x23#32,
        0x24#32, 0x25#32, 0x28#32, 0x29#32, 0x2A#32, 0x2B#32, 0x2C#32, 0x2D#32, 0x30#32] : List CmdWord)) ∧
    ((∃ e, decode w = .error e) ↔
      w.extractLsb' 8 24 ≠ 0 ∨ (w.extractLsb' 0 8).toNat ≤ 0x0F ∨
      (0x15 ≤ (w.extractLsb' 0 8).toNat ∧ (w.extractLsb' 0 8).toNat ≤ 0x17) ∨
      (0x1B ≤ (w.extractLsb' 0 8).toNat ∧ (w.extractLsb' 0 8).toNat ≤ 0x1F) ∨
      (w.extractLsb' 0 8).toNat = 0x26 ∨ (w.extractLsb' 0 8).toNat = 0x27 ∨
      (w.extractLsb' 0 8).toNat = 0x2E ∨ (w.extractLsb' 0 8).toNat = 0x2F ∨ 0x31 ≤ (w.extractLsb' 0 8).toNat) ∧
    ((∃ e, decode w = .error e) →
      ∀ (s : State) (v : Word) (rest : List HostMove), s.pending = .regWrite 0 v :: rest → v.extractLsb' 0 32 = w →
        s.status.getLsbD 0 = false →
        step s = .next { s with pending := rest, cmd := w, status := 0x00000003#32, faultCmd := w })

/-- R209, R23: a write to CMD while a fault is recorded is dropped; nothing changes but that the transaction is taken. -/
def Obligations.FaultedStateDropsCommandWrites : Prop :=
  ∀ (s : State) (v : Word) (rest : List HostMove), s.pending = .regWrite 0 v :: rest → s.status.getLsbD 0 = true →
    step s = .next { s with pending := rest }

/-- R209, R243: a run that has reached a recorded fault never ends successfully, whatever follows. What counts as a
successful end is `endsWell`, the model's reading of R243 (log 12, DEDUCED); that a RESET taken while a fault is recorded
spoils the run holds by that definition. -/
def Obligations.FaultedRunNeverEndsSuccessfully : Prop :=
  ∀ (k : Nat) (s : State), s.faulted = true → s.endsWell k = false

/-- R210: from a faulted state, every step but RESET leaves the fault record, CMD and the latch as they are, and RESET
clears the latch. -/
def Obligations.OnlyResetLeavesTheFaultedState : Prop :=
  ∀ s t : State, s.faulted = true → step s = .next t →
    (s.pending.head? ≠ some .reset →
      t.status = s.status ∧ t.faultCmd = s.faultCmd ∧ t.cmd = s.cmd ∧ t.faulted = true) ∧
    (s.pending.head? = some .reset → t.faulted = false)

/-- R42: what REG_READ returns for each register number, and that it changes no state. -/
def Obligations.RegisterReadsReturnAndChangeNothing : Prop :=
  ∀ (s : State) (n : Fin 16) (rest : List HostMove), s.pending = .regRead n :: rest →
    step s = .next { s with
      pending := rest
      replies := s.replies ++ [.word
        (if n.val = 0 then some (s.cmd.setWidth 64)
        else if n.val = 1 then some (s.status.setWidth 64)
        else if n.val = 2 then some (s.faultCmd.setWidth 64)
        else if n.val = 3 then s.offset
        else if n.val = 4 then s.count
        else if n.val = 5 then s.data
        else if n.val = 6 then s.acc
        else some 0#64)] }

/-- R31: register numbers 7 to 15 read as zero and ignore writes, and so do writes to STATUS and FAULT_CMD. -/
def Obligations.ReservedAndReadOnlyRegisters : Prop :=
  ∀ (s : State) (n : Fin 16) (rest : List HostMove),
    (7 ≤ n.val → s.pending = .regRead n :: rest →
      step s = .next { s with pending := rest, replies := s.replies ++ [.word (some 0#64)] }) ∧
    (∀ v : Word, (7 ≤ n.val ∨ n.val = 1 ∨ n.val = 2) → s.pending = .regWrite n v :: rest →
      step s = .next { s with pending := rest })

/-- R41, R33: a host write to OFFSET, COUNT, DATA or ACC gives the register that value and marks it written, in every
state. -/
def Obligations.OperandRegisterWrites : Prop :=
  ∀ (s : State) (v : Word) (rest : List HostMove),
    (s.pending = .regWrite 3 v :: rest → step s = .next { s with pending := rest, offset := some v }) ∧
    (s.pending = .regWrite 4 v :: rest → step s = .next { s with pending := rest, count := some v }) ∧
    (s.pending = .regWrite 5 v :: rest → step s = .next { s with pending := rest, data := some v }) ∧
    (s.pending = .regWrite 6 v :: rest → step s = .next { s with pending := rest, acc := some v })

/-- R43: VBUF_WRITE and VBUF_READ, in range and out of range. -/
def Obligations.VbufTransactions : Prop :=
  ∀ (s : State) (j : Nat) (rest : List HostMove),
    (∀ v : Word, s.pending = .vbufWrite j v :: rest → j < s.vbuf.length →
      ∃ t, step s = .next t ∧ t = { s with pending := rest, vbuf := t.vbuf } ∧ t.vbuf.length = s.vbuf.length ∧
        t.vbuf[j]? = some (some v) ∧ ∀ j', j' ≠ j → t.vbuf[j']? = s.vbuf[j']?) ∧
    (s.pending = .vbufRead j :: rest → ∀ e : Option Word, s.vbuf[j]? = some e →
      step s = .next { s with pending := rest, replies := s.replies ++ [.word e] }) ∧
    (∀ v : Word, s.pending = .vbufWrite j v :: rest → s.vbuf.length ≤ j →
      step s = .refused (.vbufIndexOutOfRange j)) ∧
    (s.pending = .vbufRead j :: rest → s.vbuf.length ≤ j → step s = .refused (.vbufIndexOutOfRange j))

/-- R44: STORE_WRITE and STORE_READ, in range and out of range. -/
def Obligations.StoreTransactions : Prop :=
  ∀ (s : State) (a : Nat) (rest : List HostMove),
    (∀ b : Byte, s.pending = .storeWrite a b :: rest → a < s.bufLen →
      ∃ t, step s = .next t ∧ t = { s with pending := rest, mem := t.mem } ∧ t.byteAt a = b ∧
        ∀ a', a' ≠ a → t.byteAt a' = s.byteAt a') ∧
    (s.pending = .storeRead a :: rest → a < s.bufLen →
      step s = .next { s with pending := rest, replies := s.replies ++ [.byte (s.byteAt a)] }) ∧
    (∀ b : Byte, s.pending = .storeWrite a b :: rest → s.bufLen ≤ a →
      step s = .refused (.storeAddressOutOfRange a)) ∧
    (s.pending = .storeRead a :: rest → s.bufLen ≤ a → step s = .refused (.storeAddressOutOfRange a))

/-- R75, R76, R219: each step takes exactly the oldest transaction, whatever it is, and an idle CORE changes nothing. -/
def Obligations.TransactionsTakeEffectInOrder : Prop :=
  (∀ s t : State, step s = .next t → t.pending = s.pending.tail) ∧
  ∀ s : State, s.pending = [] → step s = .next s

/-- R240: the transactions the model refuses are exactly those with an index out of range. A run that reaches a refusal,
after any number of steps, does not end successfully, however many transactions it goes on for: R240 keeps the refusal for
the whole run, and `endsWell` is the model's reading of R243 (log 12, DEDUCED). -/
def Obligations.RefusalsAreExactlyTheOutOfRangeMoves : Prop :=
  (∀ s : State, (∃ r, step s = .refused r) ↔
    ∃ rest : List HostMove,
      (∃ j v, s.vbuf.length ≤ j ∧ s.pending = .vbufWrite j v :: rest) ∨
      (∃ j, s.vbuf.length ≤ j ∧ s.pending = .vbufRead j :: rest) ∨
      (∃ a b, s.bufLen ≤ a ∧ s.pending = .storeWrite a b :: rest) ∨
      (∃ a, s.bufLen ≤ a ∧ s.pending = .storeRead a :: rest)) ∧
  ∀ (k : Nat) (s : State) (r : Refusal), Host.Core.run Sys2Proof.core k s = .refused r →
    ∀ m, k ≤ m → s.endsWell m = false

/-! ### Decode -/

/-- R97, R99: decoding is the exact match of the opcode map, in both directions, for every command and every word. -/
def Obligations.DecodeAndEncodeAgree : Prop :=
  ∀ (w : CmdWord) (i : Instr), decode w = .ok i ↔ w = encode i

/-- R93 to R95, R97: words written out bit by bit from the fields RSV, GRP and SUB. -/
def Obligations.WrittenOutWordsDecode : Prop :=
  decode 0b00000000_00000000_00000000_0001_0000#32 = .ok .readBits ∧
  decode 0b00000000_00000000_00000000_0001_1010#32 = .ok .flipAllBits ∧
  decode 0b00000000_00000000_00000000_0010_0011#32 = .ok .readU32Be ∧
  decode 0b00000000_00000000_00000000_0010_1100#32 = .ok .writeU64Le ∧
  decode 0b00000000_00000000_00000000_0011_0000#32 = .ok .writeBytes ∧
  decode 0b00000000_00000000_00000000_0010_0110#32 = .error .reservedWidth ∧
  decode 0b00000000_00000000_00000001_0001_0000#32 = .error .reservedBits

/-- R100: the line `issue <MNEMONIC>` is the write of that command's word to CMD, for every command. The tokenizing of the
line is the model's choice (log 9). -/
def Obligations.IssueLineWritesTheCommandWord : Prop :=
  ∀ (n : Nat) (i : Instr),
    assembleLine n ("issue ".toList ++ (mnemonicOf i).toList) = some [.regWrite 0 ((encode i).setWidth 64)]

/-! ### Faults -/

/-- R24, R201, R208: the STATUS word of each cause. -/
def Obligations.StatusWordOfEachCause : Prop :=
  Cause.statusWord .illegalCommand = 0x00000003#32 ∧ Cause.statusWord .uninitializedOperand = 0x00000005#32 ∧
  Cause.statusWord .badCount = 0x00000007#32 ∧ Cause.statusWord .storeOutOfBounds = 0x00000009#32 ∧
  Cause.statusWord .vbufOutOfBounds = 0x0000000B#32

/-- R111, R116, R207: READ_BITS and SET_BITS make their checks in this order, and each failure changes nothing but the
fault record. `third` is the third operand, ACC or DATA. -/
def Obligations.FieldCommandsCheckInOrder : Prop :=
  ∀ (s : State) (i : Instr) (third : Option Word),
    (i = .readBits ∧ third = s.acc) ∨ (i = .setBits ∧ third = s.data) →
    ((s.offset = none ∨ s.count = none ∨ third = none) →
      exec i s = .next { s with status := 0x00000005#32, faultCmd := s.cmd }) ∧
    (∀ off cnt v : Word, s.offset = some off → s.count = some cnt → third = some v →
      ((cnt.toInt < 0 ∨ 64 < cnt.toInt) →
        exec i s = .next { s with status := 0x00000007#32, faultCmd := s.cmd }) ∧
      (0 ≤ cnt.toInt → cnt.toInt ≤ 64 → (off.toInt < 0 ∨ 8 * (s.bufLen : Int) < off.toInt + cnt.toInt) →
        exec i s = .next { s with status := 0x00000009#32, faultCmd := s.cmd }))

/-- R121, R126, R131, R207: READ_BIT, SET_BIT and CLEAR_BIT make their checks in this order. -/
def Obligations.SingleBitCommandsCheckInOrder : Prop :=
  ∀ (s : State) (i : Instr), i ∈ [Instr.readBit, Instr.setBit, Instr.clearBit] →
    (s.offset = none → exec i s = .next { s with status := 0x00000005#32, faultCmd := s.cmd }) ∧
    (∀ off : Word, s.offset = some off → (off.toInt < 0 ∨ 8 * (s.bufLen : Int) ≤ off.toInt) →
      exec i s = .next { s with status := 0x00000009#32, faultCmd := s.cmd })

/-- R161, R163, R181, R207: the twelve integer commands and WRITE_BYTES make their checks in this order; `B` is the size of
an element in bytes. The last clause is for the commands that read VBUF. -/
def Obligations.VectorCommandsCheckInOrder : Prop :=
  ∀ (s : State) (i : Instr) (B : Nat),
    (i, B) ∈ [(Instr.readU16Le, 2), (Instr.readU16Be, 2), (Instr.readU32Le, 4), (Instr.readU32Be, 4),
      (Instr.readU64Le, 8), (Instr.readU64Be, 8), (Instr.writeU16Le, 2), (Instr.writeU16Be, 2), (Instr.writeU32Le, 4),
      (Instr.writeU32Be, 4), (Instr.writeU64Le, 8), (Instr.writeU64Be, 8), (Instr.writeBytes, 1)] →
    ((s.offset = none ∨ s.count = none) →
      exec i s = .next { s with status := 0x00000005#32, faultCmd := s.cmd }) ∧
    (∀ off cnt : Word, s.offset = some off → s.count = some cnt →
      (cnt.toInt < 0 → exec i s = .next { s with status := 0x00000007#32, faultCmd := s.cmd }) ∧
      (0 ≤ cnt.toInt → (off.toInt < 0 ∨ (s.bufLen : Int) < off.toInt + cnt.toInt * B) →
        exec i s = .next { s with status := 0x00000009#32, faultCmd := s.cmd }) ∧
      (0 ≤ cnt.toInt → 0 ≤ off.toInt → off.toInt + cnt.toInt * B ≤ (s.bufLen : Int) →
        (s.vbuf.length : Int) < cnt.toInt →
        exec i s = .next { s with status := 0x0000000B#32, faultCmd := s.cmd }) ∧
      (i ∈ [Instr.writeU16Le, Instr.writeU16Be, Instr.writeU32Le, Instr.writeU32Be, Instr.writeU64Le,
          Instr.writeU64Be, Instr.writeBytes] →
        0 ≤ cnt.toInt → 0 ≤ off.toInt → off.toInt + cnt.toInt * B ≤ (s.bufLen : Int) →
        cnt.toInt ≤ (s.vbuf.length : Int) → (∃ j : Nat, (j : Int) < cnt.toInt ∧ s.vbuf[j]? = some none) →
        exec i s = .next { s with status := 0x00000005#32, faultCmd := s.cmd }))

/-- R208, with the causes R201 and R207 list for each command: a command that records a fault writes STATUS and FAULT_CMD,
`(c << 1) | 1` and CMD, and nothing else, and otherwise it leaves both as they are; an illegal word, once CMD holds it,
does the same with code 1. -/
def Obligations.FaultsArePrecise : Prop :=
  (∀ (i : Instr) (s t : State), exec i s = .next t →
    (∃ c : Cause, i.mayRaise c = true ∧
      t = { s with status := (c.code.setWidth 32 <<< 1) ||| 1#32, faultCmd := s.cmd }) ∨
    (t.status = s.status ∧ t.faultCmd = s.faultCmd)) ∧
  ∀ (s : State) (v : Word) (rest : List HostMove) (e : Illegal), s.pending = .regWrite 0 v :: rest →
    s.status.getLsbD 0 = false → decode (v.extractLsb' 0 32) = .error e →
    step s = .next { s with
      pending := rest
      cmd := v.extractLsb' 0 32
      status := (1#32 <<< 1) ||| 1#32
      faultCmd := v.extractLsb' 0 32 }

/-! ### bit_codec_engine -/

/-- R112: READ_BITS completes and ACC becomes `(uint(acc) * 2^n + F) mod 2^64`, F the field MSB first; nothing else
changes. That the bits above 63 are lost is R10's general knowledge (log 6). -/
def Obligations.ReadBitsAccumulatesTheField : Prop :=
  ∀ (s : State) (k n : Nat) (acc : Word), s.FieldReady k n → s.acc = some acc →
    ∃ v : Word, exec .readBits s = .next { s with acc := some v } ∧
      v.toNat = (acc.toNat * 2 ^ n + s.fieldAt k n) % 2 ^ 64

/-- R113 (c): at COUNT = 64 the result does not depend on the old ACC. It rests wholly on the left shift discarding the bits
above 63, which R10 marks as general knowledge (log 6, PRESUMED). -/
def Obligations.ReadBitsOf64ForgetsTheOldAcc : Prop :=
  ∀ (s : State) (k : Nat) (acc acc' : Word), s.FieldReady k 64 →
    exec .readBits { s with acc := some acc } = exec .readBits { s with acc := some acc' }

/-- R117: SET_BITS completes; store bit `k + i` becomes `data[n-1-i]`, no other bit changes, no register changes. -/
def Obligations.SetBitsWritesTheField : Prop :=
  ∀ (s : State) (k n : Nat) (data : Word), s.FieldReady k n → s.data = some data →
    ∃ t, exec .setBits s = .next t ∧ t = { s with mem := t.mem } ∧
      (∀ i < n, t.bitAt (k + i) = data.getLsbD (n - 1 - i)) ∧
      ∀ k', k' < k ∨ k + n ≤ k' → t.bitAt k' = s.bitAt k'

/-- R118 (b): SET_BITS ignores the bits of DATA above COUNT. -/
def Obligations.SetBitsIgnoresUpperData : Prop :=
  ∀ (s t : State) (k n : Nat) (d d' : Word), s.FieldReady k n → d.toNat % 2 ^ n = d'.toNat % 2 ^ n →
    exec .setBits { s with data := some d } = .next t →
    exec .setBits { s with data := some d' } = .next { t with data := some d' }

/-- The document's bit round trip (E4): SET_BITS, then READ_BITS of the same field with ACC = 0, gives `data mod 2^n`. -/
def Obligations.BitFieldRoundTrip : Prop :=
  ∀ (s : State) (k n : Nat) (data : Word), s.FieldReady k n → s.data = some data →
    ∃ t, exec .setBits s = .next t ∧
      exec .readBits { t with acc := some 0#64 } = .next { t with acc := some (BitVec.ofNat 64 (data.toNat % 2 ^ n)) }

/-- R122: READ_BIT completes and ACC becomes the bit, zero-extended, whatever it held; nothing else changes. -/
def Obligations.ReadBitReplacesAcc : Prop :=
  ∀ (s : State) (k : Nat), s.BitReady k →
    exec .readBit s = .next { s with acc := some (if s.bitAt k then 1#64 else 0#64) }

/-- R127, R132: SET_BIT and CLEAR_BIT complete; the bit at OFFSET becomes 1 or 0, no other bit of the store changes, and
no register changes. -/
def Obligations.SetBitAndClearBitWriteOneBit : Prop :=
  ∀ (s : State) (k : Nat), s.BitReady k →
    (∃ t, exec .setBit s = .next t ∧ t = { s with mem := t.mem } ∧ t.bitAt k = true ∧
      ∀ k', k' ≠ k → t.bitAt k' = s.bitAt k') ∧
    (∃ t, exec .clearBit s = .next t ∧ t = { s with mem := t.mem } ∧ t.bitAt k = false ∧
      ∀ k', k' ≠ k → t.bitAt k' = s.bitAt k')

/-- R137, R142, R147: the whole-buffer commands complete; every byte of the store becomes 0x00, 0xFF or its complement, and
nothing else changes. They have no check to fail; that `exec` acts in a state with a fault recorded too, where R209 runs no
command, is the model's choice (log 8). -/
def Obligations.WholeBufferCommands : Prop :=
  ∀ s : State,
    (∃ t, exec .clearAllBits s = .next t ∧ t = { s with mem := t.mem } ∧ (∀ a < s.bufLen, t.byteAt a = 0x00#8) ∧
      ∀ a, s.bufLen ≤ a → t.byteAt a = s.byteAt a) ∧
    (∃ t, exec .setAllBits s = .next t ∧ t = { s with mem := t.mem } ∧ (∀ a < s.bufLen, t.byteAt a = 0xFF#8) ∧
      ∀ a, s.bufLen ≤ a → t.byteAt a = s.byteAt a) ∧
    (∃ t, exec .flipAllBits s = .next t ∧ t = { s with mem := t.mem } ∧ (∀ a < s.bufLen, t.byteAt a = ~~~(s.byteAt a)) ∧
      ∀ a, s.bufLen ≤ a → t.byteAt a = s.byteAt a)

/-- R148 (b): FLIP_ALL_BITS is its own inverse, on the whole state, where memory is in its canonical form. -/
def Obligations.FlipAllBitsIsItsOwnInverse : Prop :=
  ∀ s : State, Memory.wf s.mem = true → ∃ t, exec .flipAllBits s = .next t ∧ exec .flipAllBits t = .next s

/-! ### endian_converter_mux -/

/-- R150, R151: the bytes of ENC, LE and BE, and DEC as the weighted sum, which fits in W bits. -/
def Obligations.MuxEncodesAndDecodesByLane : Prop :=
  ∀ (w : Width) (B : Nat), (w, B) ∈ [(Width.w16, 2), (Width.w32, 4), (Width.w64, 8)] →
    (∀ v : Word, (enc w .le v).length = B ∧ (enc w .be v).length = B ∧
      ∀ i < B, 8 * i ≤ 56 ∧ ((enc w .le v).getD i 0#8).toNat = v.toNat / 2 ^ (8 * i) % 256 ∧
        ((enc w .be v).getD i 0#8).toNat = v.toNat / 2 ^ (8 * (B - 1 - i)) % 256) ∧
    ∀ bs : List Byte, bs.length = B →
      dec w .le bs = ∑ i ∈ Finset.range B, (bs.getD i 0#8).toNat * 2 ^ (8 * i) ∧
      dec w .be bs = ∑ i ∈ Finset.range B, (bs.getD i 0#8).toNat * 2 ^ (8 * (B - 1 - i)) ∧
      dec w .le bs < 2 ^ (8 * B) ∧ dec w .be bs < 2 ^ (8 * B)

/-- R153: the four laws of the mux. -/
def Obligations.MuxLaws : Prop :=
  ∀ (w : Width) (e : ByteOrder),
    (∀ v : Word, v.toNat < 2 ^ w.bits → dec w e (enc w e v) = v.toNat) ∧
    (∀ bs : List Byte, bs.length = w.bytes → enc w e (BitVec.ofNat 64 (dec w e bs)) = bs) ∧
    (∀ v : Word, enc w .be v = (enc w .le v).reverse) ∧
    (∀ bs : List Byte, bs.length = w.bytes → dec w .be bs = dec w .le bs.reverse)

/-! ### integer_codec_engine and byte_copy_unit -/

/-- R162, R166, R168, R170: the little-endian reads complete; `V[j]` becomes the zero-extended value of the `B` bytes from
`a + j*B`, for j below COUNT; no other entry and nothing else changes. -/
def Obligations.LittleEndianReads : Prop :=
  ∀ (i : Instr) (B : Nat), (i, B) ∈ [(Instr.readU16Le, 2), (Instr.readU32Le, 4), (Instr.readU64Le, 8)] →
    ∀ (s : State) (a n : Nat), s.VectorReady B a n →
      ∃ t, exec i s = .next t ∧ t = { s with vbuf := t.vbuf } ∧ t.vbuf.length = s.vbuf.length ∧
        (∀ j < n, ∃ v : Word, t.vbuf[j]? = some (some v) ∧ v.toNat = s.leValue (a + j * B) B) ∧
        ∀ j, n ≤ j → t.vbuf[j]? = s.vbuf[j]?

/-- R162, R167, R169, R171: the big-endian reads, likewise. -/
def Obligations.BigEndianReads : Prop :=
  ∀ (i : Instr) (B : Nat), (i, B) ∈ [(Instr.readU16Be, 2), (Instr.readU32Be, 4), (Instr.readU64Be, 8)] →
    ∀ (s : State) (a n : Nat), s.VectorReady B a n →
      ∃ t, exec i s = .next t ∧ t = { s with vbuf := t.vbuf } ∧ t.vbuf.length = s.vbuf.length ∧
        (∀ j < n, ∃ v : Word, t.vbuf[j]? = some (some v) ∧ v.toNat = s.beValue (a + j * B) B) ∧
        ∀ j, n ≤ j → t.vbuf[j]? = s.vbuf[j]?

/-- R164, R172, R174, R176: the little-endian writes complete; byte `b` of element `j` goes to `a + j*B + b`, no other byte
and nothing else changes. -/
def Obligations.LittleEndianWrites : Prop :=
  ∀ (i : Instr) (B : Nat), (i, B) ∈ [(Instr.writeU16Le, 2), (Instr.writeU32Le, 4), (Instr.writeU64Le, 8)] →
    ∀ (s : State) (a : Nat) (vs : List Word), s.VectorReady B a vs.length → s.EntriesHold vs →
      ∃ t, exec i s = .next t ∧ t = { s with mem := t.mem } ∧
        (∀ (j : Nat) (v : Word), vs[j]? = some v → ∀ b < B, t.byteAt (a + j * B + b) = v.extractLsb' (8 * b) 8) ∧
        ∀ a', a' < a ∨ a + vs.length * B ≤ a' → t.byteAt a' = s.byteAt a'

/-- R164, R173, R175, R177: the big-endian writes, likewise, with byte `B-1-b` of the element at place `b`. -/
def Obligations.BigEndianWrites : Prop :=
  ∀ (i : Instr) (B : Nat), (i, B) ∈ [(Instr.writeU16Be, 2), (Instr.writeU32Be, 4), (Instr.writeU64Be, 8)] →
    ∀ (s : State) (a : Nat) (vs : List Word), s.VectorReady B a vs.length → s.EntriesHold vs →
      ∃ t, exec i s = .next t ∧ t = { s with mem := t.mem } ∧
        (∀ (j : Nat) (v : Word), vs[j]? = some v →
          ∀ b < B, t.byteAt (a + j * B + b) = v.extractLsb' (8 * (B - 1 - b)) 8) ∧
        ∀ a', a' < a ∨ a + vs.length * B ≤ a' → t.byteAt a' = s.byteAt a'

/-- R182: WRITE_BYTES completes; `S[a + j]` becomes `V[j][7:0]`, no other byte and nothing else changes. -/
def Obligations.WriteBytesCopiesTheLowBytes : Prop :=
  ∀ (s : State) (a : Nat) (vs : List Word), s.VectorReady 1 a vs.length → s.EntriesHold vs →
    ∃ t, exec .writeBytes s = .next t ∧ t = { s with mem := t.mem } ∧
      (∀ (j : Nat) (v : Word), vs[j]? = some v → t.byteAt (a + j) = v.extractLsb' 0 8) ∧
      ∀ a', a' < a ∨ a + vs.length ≤ a' → t.byteAt a' = s.byteAt a'

/-- R178: a write and then the read of the same width and order, with OFFSET and COUNT as they stand: the entries hold the
low W bits of what was written, the store stays as the write left it, and for entries below `2^W` nothing changes. -/
def Obligations.IntegerRoundTrip : Prop :=
  ∀ (wr rd : Instr) (B : Nat),
    (wr, rd, B) ∈ [(Instr.writeU16Le, Instr.readU16Le, 2), (Instr.writeU16Be, Instr.readU16Be, 2),
      (Instr.writeU32Le, Instr.readU32Le, 4), (Instr.writeU32Be, Instr.readU32Be, 4),
      (Instr.writeU64Le, Instr.readU64Le, 8), (Instr.writeU64Be, Instr.readU64Be, 8)] →
    ∀ (s : State) (a : Nat) (vs : List Word), s.VectorReady B a vs.length → s.EntriesHold vs →
      ∃ t, exec wr s = .next t ∧
        exec rd t = .next { t with
          vbuf := vs.map (fun v => some (BitVec.ofNat 64 (v.toNat % 2 ^ (8 * B)))) ++ s.vbuf.drop vs.length } ∧
        ((∀ v ∈ vs, v.toNat < 2 ^ (8 * B)) → exec rd t = .next t)

/-- R64: the three views of one element. (a) Written BE and read as `8*B` bits it is the same value; (b) written LE and
read as bits its bytes are reversed; (c) written in one order and read in the other its bytes are reversed. The premise
on BUF_LEN is R6's range, so that the bit offset fits the register. -/
def Obligations.ViewsOfOneElementAgree : Prop :=
  ∀ (wl wb rl rb : Instr) (B : Nat),
    (wl, wb, rl, rb, B) ∈ [(Instr.writeU16Le, Instr.writeU16Be, Instr.readU16Le, Instr.readU16Be, 2),
      (Instr.writeU32Le, Instr.writeU32Be, Instr.readU32Le, Instr.readU32Be, 4),
      (Instr.writeU64Le, Instr.writeU64Be, Instr.readU64Le, Instr.readU64Be, 8)] →
    ∀ (s : State) (a : Nat) (v same turned : Word), s.bufLen < 2 ^ 60 → s.VectorReady B a 1 → s.EntriesHold [v] →
      same.toNat = v.toNat % 2 ^ (8 * B) →
      turned.toNat = ∑ i ∈ Finset.range B, (v.extractLsb' (8 * i) 8).toNat * 2 ^ (8 * (B - 1 - i)) →
      (∃ t, exec wb s = .next t ∧
        exec .readBits { t with
          offset := some (BitVec.ofNat 64 (8 * a)), count := some (BitVec.ofNat 64 (8 * B)), acc := some 0#64 } =
        .next { t with
          offset := some (BitVec.ofNat 64 (8 * a)), count := some (BitVec.ofNat 64 (8 * B)), acc := some same } ∧
        exec rl t = .next { t with vbuf := some turned :: s.vbuf.drop 1 }) ∧
      (∃ t, exec wl s = .next t ∧
        exec .readBits { t with
          offset := some (BitVec.ofNat 64 (8 * a)), count := some (BitVec.ofNat 64 (8 * B)), acc := some 0#64 } =
        .next { t with
          offset := some (BitVec.ofNat 64 (8 * a)), count := some (BitVec.ofNat 64 (8 * B)), acc := some turned } ∧
        exec rb t = .next { t with vbuf := some turned :: s.vbuf.drop 1 })

/-! ### Frames and whole-machine rules -/

/-- R68, R69: what a command leaves unchanged, whether it succeeds or records a fault. STATUS and FAULT_CMD are the
subject of `FaultsArePrecise`. -/
def Obligations.CommandFrame : Prop :=
  ∀ (i : Instr) (s t : State), exec i s = .next t →
    t.bufLen = s.bufLen ∧ t.cmd = s.cmd ∧ t.offset = s.offset ∧ t.count = s.count ∧ t.data = s.data ∧
    t.pending = s.pending ∧ t.replies = s.replies ∧ t.vbuf.length = s.vbuf.length ∧
    (i ∉ [Instr.readBits, Instr.readBit] → t.acc = s.acc) ∧
    (i ∉ [Instr.readU16Le, Instr.readU16Be, Instr.readU32Le, Instr.readU32Be, Instr.readU64Le, Instr.readU64Be] →
      t.vbuf = s.vbuf) ∧
    (i ∈ [Instr.readBits, Instr.readBit, Instr.readU16Le, Instr.readU16Be, Instr.readU32Le, Instr.readU32Be,
        Instr.readU64Le, Instr.readU64Be] → t.mem = s.mem)

/-- R69: the integer writes and WRITE_BYTES alter no byte outside `[OFFSET, OFFSET + COUNT*B)`, and none at all when
OFFSET or COUNT is unwritten; the reads alter no entry at or above COUNT. -/
def Obligations.VectorCommandsStayInTheirRange : Prop :=
  ∀ (i : Instr) (B : Nat) (s t : State), exec i s = .next t →
    ((i, B) ∈ [(Instr.writeU16Le, 2), (Instr.writeU16Be, 2), (Instr.writeU32Le, 4), (Instr.writeU32Be, 4),
        (Instr.writeU64Le, 8), (Instr.writeU64Be, 8), (Instr.writeBytes, 1)] →
      ((s.offset = none ∨ s.count = none) → ∀ a, t.byteAt a = s.byteAt a) ∧
      ∀ off cnt : Word, s.offset = some off → s.count = some cnt →
        ∀ a : Nat, ((a : Int) < off.toInt ∨ off.toInt + cnt.toInt * B ≤ (a : Int)) → t.byteAt a = s.byteAt a) ∧
    (i ∈ [Instr.readU16Le, Instr.readU16Be, Instr.readU32Le, Instr.readU32Be, Instr.readU64Le, Instr.readU64Be] →
      (s.count = none → t.vbuf = s.vbuf) ∧
      ∀ cnt : Word, s.count = some cnt → ∀ j : Nat, cnt.toInt ≤ (j : Int) → t.vbuf[j]? = s.vbuf[j]?)

/-- R69, C4: SET_BITS alters no bit outside `[OFFSET, OFFSET + COUNT)`, SET_BIT and CLEAR_BIT none but the one at OFFSET,
and none at all when OFFSET (or COUNT) is unwritten. -/
def Obligations.BitCommandsStayInTheirRange : Prop :=
  ∀ s t : State,
    (exec .setBits s = .next t →
      ((s.offset = none ∨ s.count = none) → ∀ k, t.bitAt k = s.bitAt k) ∧
      ∀ off cnt : Word, s.offset = some off → s.count = some cnt →
        ∀ k : Nat, ((k : Int) < off.toInt ∨ off.toInt + cnt.toInt ≤ (k : Int)) → t.bitAt k = s.bitAt k) ∧
    (exec .setBit s = .next t ∨ exec .clearBit s = .next t →
      (s.offset = none → ∀ k, t.bitAt k = s.bitAt k) ∧
      ∀ off : Word, s.offset = some off → ∀ k : Nat, (k : Int) ≠ off.toInt → t.bitAt k = s.bitAt k)

/-- R26, R27, R28: only the host writes OFFSET, COUNT and DATA, by REG_WRITE or RESET; no command changes them. -/
def Obligations.OnlyTheHostWritesOperands : Prop :=
  ∀ s t : State, step s = .next t →
    (t.offset = s.offset ∨ (∃ v rest, s.pending = .regWrite 3 v :: rest ∧ t.offset = some v) ∨
      (s.pending.head? = some .reset ∧ t.offset = none)) ∧
    (t.count = s.count ∨ (∃ v rest, s.pending = .regWrite 4 v :: rest ∧ t.count = some v) ∨
      (s.pending.head? = some .reset ∧ t.count = none)) ∧
    (t.data = s.data ∨ (∃ v rest, s.pending = .regWrite 5 v :: rest ∧ t.data = some v) ∨
      (s.pending.head? = some .reset ∧ t.data = none))

/-- R68, "other reads": a command's effect does not depend on the operand registers and VBUF entries it does not read.
(1) DATA, for all but SET_BITS. (2) ACC, for all but READ_BITS and READ_BIT. (3) READ_BIT does not read ACC either: it
replaces it, or leaves it when it records a fault. (4) COUNT, for READ_BIT, SET_BIT, CLEAR_BIT and the whole-buffer
commands. (5) OFFSET, for the whole-buffer commands. (6) VBUF, for the bit commands. (7) The old entries, for the integer
reads: each entry is the same as before the change, or one that the command leaves alone. (8) The entries at or above COUNT,
for the commands that read VBUF. -/
def Obligations.CommandsIgnoreWhatTheyDoNotRead : Prop :=
  ∀ (i : Instr) (s t : State), exec i s = .next t →
    (i ≠ .setBits → ∀ d, exec i { s with data := d } = .next { t with data := d }) ∧
    (i ≠ .readBits → i ≠ .readBit → ∀ v, exec i { s with acc := v } = .next { t with acc := v }) ∧
    (i = .readBit → ∀ v,
      ((∃ k, s.BitReady k) → exec i { s with acc := v } = .next t) ∧
      ((¬∃ k, s.BitReady k) → exec i { s with acc := v } = .next { t with acc := v })) ∧
    (i ∈ [Instr.readBit, Instr.setBit, Instr.clearBit, Instr.clearAllBits, Instr.setAllBits, Instr.flipAllBits] →
      ∀ c, exec i { s with count := c } = .next { t with count := c }) ∧
    (i ∈ [Instr.clearAllBits, Instr.setAllBits, Instr.flipAllBits] →
      ∀ off, exec i { s with offset := off } = .next { t with offset := off }) ∧
    (i ∈ [Instr.readBits, Instr.setBits, Instr.readBit, Instr.setBit, Instr.clearBit, Instr.clearAllBits,
        Instr.setAllBits, Instr.flipAllBits] →
      ∀ vb, exec i { s with vbuf := vb } = .next { t with vbuf := vb }) ∧
    (i ∈ [Instr.readU16Le, Instr.readU16Be, Instr.readU32Le, Instr.readU32Be, Instr.readU64Le, Instr.readU64Be] →
      ∀ vb : List (Option Word), vb.length = s.vbuf.length →
        ∃ u, exec i { s with vbuf := vb } = .next u ∧ u = { t with vbuf := u.vbuf } ∧
          ∀ j : Nat, u.vbuf[j]? = t.vbuf[j]? ∨ (u.vbuf[j]? = vb[j]? ∧ t.vbuf[j]? = s.vbuf[j]?)) ∧
    (i ∈ [Instr.writeU16Le, Instr.writeU16Be, Instr.writeU32Le, Instr.writeU32Be, Instr.writeU64Le, Instr.writeU64Be,
        Instr.writeBytes] →
      ∀ vb : List (Option Word), vb.length = s.vbuf.length →
        (∀ cnt : Word, s.count = some cnt → ∀ j : Nat, (j : Int) < cnt.toInt → vb[j]? = s.vbuf[j]?) →
        exec i { s with vbuf := vb } = .next { t with vbuf := vb })

/-- R71: running a command twice in a row leaves the same state as running it once, but for READ_BITS and FLIP_ALL_BITS.
The premise is memory's canonical form, which every reachable state has (`StepKeepsInvariant`). -/
def Obligations.CommandsRepeatWithoutEffect : Prop :=
  ∀ (i : Instr) (s t : State), i ≠ .readBits → i ≠ .flipAllBits → Memory.wf s.mem = true → exec i s = .next t →
    exec i t = .next t

/-- R70, R76, R200: every command, in every state, ends in a next state; and no step of the machine ever asks for a byte
or an entry that does not exist, so the range checks of R66 and R67 suffice. -/
def Obligations.CommandsCompleteInsideTheStore : Prop :=
  (∀ (i : Instr) (s : State), ∃ t, exec i s = .next t) ∧ ∀ (s : State) (f : Fault), step s ≠ .fault f

/-- R6, R20: no step changes BUF_LEN or VBUF_LEN. -/
def Obligations.ParametersNeverChange : Prop :=
  ∀ s t : State, step s = .next t → t.bufLen = s.bufLen ∧ t.vbuf.length = s.vbuf.length

/-- The invariant is kept by every step: parameters in the ranges of R6; memory canonical, with no byte outside the store;
and a fault record that is either all zero or a cause that the word in CMD and FAULT_CMD can raise (R24, R25, R201,
R208). -/
def Obligations.StepKeepsInvariant : Prop :=
  ∀ s t : State, s.Inv → step s = .next t → t.Inv

/-- R24, R25, R201: in every state that meets the invariant, STATUS bits 31:4 are zero; with FAULT = 0 the CAUSE field and
FAULT_CMD are zero too; with FAULT = 1 CAUSE is one of the codes 1 to 5 and FAULT_CMD is the word CMD holds. -/
def Obligations.StatusFieldsUnderTheInvariant : Prop :=
  ∀ s : State, s.Inv →
    s.status.extractLsb' 4 28 = 0#28 ∧
    (s.status.getLsbD 0 = false → s.status.extractLsb' 1 3 = 0#3 ∧ s.faultCmd = 0#32) ∧
    (s.status.getLsbD 0 = true →
      1 ≤ (s.status.extractLsb' 1 3).toNat ∧ (s.status.extractLsb' 1 3).toNat ≤ 5 ∧ s.faultCmd = s.cmd)

/-- R137, R142, R147, as the host sees them: with no fault recorded, the step that issues a whole-buffer command rewrites
every byte of the store, and besides that only takes the transaction and puts the word in CMD. -/
def Obligations.IssuedWholeBufferCommandsRewriteTheStore : Prop :=
  ∀ (s : State) (w : CmdWord) (f : Byte → Byte) (rest : List HostMove),
    (w = 0x00000018#32 ∧ f = fun _ => 0x00#8) ∨ (w = 0x00000019#32 ∧ f = fun _ => 0xFF#8) ∨
      (w = 0x0000001A#32 ∧ f = fun b => ~~~b) →
    s.status.getLsbD 0 = false → s.pending = .regWrite 0 (w.setWidth 64) :: rest →
    ∃ t, step s = .next t ∧ t = { s with pending := rest, cmd := w, mem := t.mem } ∧
      (∀ a < s.bufLen, t.byteAt a = f (s.byteAt a)) ∧ ∀ a, s.bufLen ≤ a → t.byteAt a = s.byteAt a
end

