-- ==== Sys2Proof/Laws/Memory.lean ====
section
/-! SUPPORT. The laws of memory: a read after a write, the canonical form and its uniqueness, and that no write lists an
address outside the store. -/

namespace Sys2Proof.Machine

/-! ### Read after write; these hold of every list, canonical or not -/

theorem Memory.read_erase_same (m : Memory) (a : Nat) : Memory.read (Memory.erase m a) a = Memory.unlisted := by
  induction m with
  | nil => rfl
  | cons c rest ih =>
    by_cases h : c.1 = a
    · simpa [Memory.erase, h] using ih
    · simpa [Memory.erase, h, Memory.read] using ih

theorem Memory.read_erase_other (m : Memory) {a a' : Nat} (h : a' ≠ a) :
    Memory.read (Memory.erase m a) a' = Memory.read m a' := by
  induction m with
  | nil => rfl
  | cons c rest ih =>
    by_cases hc : c.1 = a
    · have : c.1 ≠ a' := fun e => h (e.symm.trans hc)
      simpa [Memory.erase, hc, Memory.read, this, Ne.symm h] using ih
    · have ih' : Memory.read (List.filter (fun c => !decide (c.1 = a)) rest) a' = Memory.read rest a' := ih
      simp [Memory.erase, hc, Memory.read, ih']

theorem Memory.read_insert_other (m : Memory) {a a' : Nat} (b : Byte) (h : a' ≠ a) :
    Memory.read (Memory.insert m a b) a' = Memory.read m a' := by
  induction m with
  | nil => simp [Memory.insert, Memory.read, Ne.symm h]
  | cons c rest ih =>
    simp only [Memory.insert]
    split
    · simp [Memory.read, Ne.symm h]
    · simp [Memory.read, ih]

theorem Memory.read_insert_same (m : Memory) (a : Nat) (b : Byte) (h : ∀ c ∈ m, c.1 ≠ a) :
    Memory.read (Memory.insert m a b) a = b := by
  induction m with
  | nil => simp [Memory.insert, Memory.read]
  | cons c rest ih =>
    simp only [Memory.insert]
    split
    · simp [Memory.read]
    · have hc : c.1 ≠ a := h c (by simp)
      simp [Memory.read, hc, ih (fun x hx => h x (by simp [hx]))]

theorem Memory.erase_addresses (m : Memory) (a : Nat) : ∀ c ∈ Memory.erase m a, c.1 ≠ a := by
  intro c hc
  have := (List.mem_filter.mp hc).2
  simpa using this

/-- A read after a write to the same address gives the byte written. -/
@[simp] theorem Memory.read_write_same (m : Memory) (a : Nat) (b : Byte) : Memory.read (Memory.write m a b) a = b := by
  unfold Memory.write
  split
  · next h => rw [Memory.read_erase_same, h]
  · exact Memory.read_insert_same _ _ _ (Memory.erase_addresses m a)

/-- A write leaves every other address alone. -/
theorem Memory.read_write_other (m : Memory) {a a' : Nat} (b : Byte) (h : a' ≠ a) :
    Memory.read (Memory.write m a b) a' = Memory.read m a' := by
  unfold Memory.write
  split
  · exact Memory.read_erase_other m h
  · rw [Memory.read_insert_other _ _ h, Memory.read_erase_other m h]

/-- Both cases of a read after a write. -/
theorem Memory.read_write (m : Memory) (a a' : Nat) (b : Byte) :
    Memory.read (Memory.write m a b) a' = if a' = a then b else Memory.read m a' := by
  split
  · next h => rw [h, Memory.read_write_same]
  · next h => exact Memory.read_write_other m b h

/-! ### The canonical form -/

/-- A lower bound on the addresses, weakened. -/
theorem Memory.wfAbove_mono {lo lo' : Option Nat} {m : Memory} (h : Memory.wfAbove lo m = true)
    (hl : ∀ l', lo' = some l' → ∃ l, lo = some l ∧ l' ≤ l) : Memory.wfAbove lo' m = true := by
  cases m with
  | nil => rfl
  | cons c rest =>
    simp only [Memory.wfAbove, Bool.and_eq_true] at h ⊢
    refine ⟨⟨?_, h.1.2⟩, h.2⟩
    cases lo' with
    | none => rfl
    | some l' =>
      obtain ⟨l, rfl, hle⟩ := hl l' rfl
      have := h.1.1
      simp only [Option.all_some, decide_eq_true_eq] at this ⊢
      omega

theorem Memory.wfAbove_none {lo : Option Nat} {m : Memory} (h : Memory.wfAbove lo m = true) :
    Memory.wfAbove none m = true := Memory.wfAbove_mono h (by simp)

theorem Memory.wfAbove_erase {lo : Option Nat} {m : Memory} (a : Nat) (h : Memory.wfAbove lo m = true) :
    Memory.wfAbove lo (Memory.erase m a) = true := by
  induction m generalizing lo with
  | nil => rfl
  | cons c rest ih =>
    simp only [Memory.wfAbove, Bool.and_eq_true] at h
    by_cases hc : c.1 = a
    · have hr : Memory.wfAbove lo rest = true := by
        refine Memory.wfAbove_mono h.2 ?_
        rintro l' rfl
        refine ⟨c.1, rfl, ?_⟩
        have := h.1.1
        simp only [Option.all_some, decide_eq_true_eq] at this
        omega
      have := ih hr
      simpa [Memory.erase, hc] using this
    · have := ih h.2
      rw [Memory.erase] at this ⊢
      rw [List.filter_cons_of_pos (by simpa using hc)]
      simp only [Memory.wfAbove, Bool.and_eq_true]
      exact ⟨h.1, this⟩

theorem Memory.wfAbove_insert {lo : Option Nat} {m : Memory} {a : Nat} {b : Byte} (hb : b ≠ Memory.unlisted)
    (hlo : ∀ l, lo = some l → l < a) (hm : ∀ c ∈ m, c.1 ≠ a) (h : Memory.wfAbove lo m = true) :
    Memory.wfAbove lo (Memory.insert m a b) = true := by
  induction m generalizing lo with
  | nil =>
    cases lo <;> simp_all [Memory.insert, Memory.wfAbove]
  | cons c rest ih =>
    simp only [Memory.wfAbove, Bool.and_eq_true] at h
    simp only [Memory.insert]
    have hlo' : (lo.all fun l => decide (l < a)) = true := by
      cases lo with
      | none => rfl
      | some l => simpa using hlo l rfl
    split
    · next hlt => simp [Memory.wfAbove, hb, hlo', hlt, h.2, h.1.2]
    · next hnlt =>
      have hc : c.1 ≠ a := hm c (by simp)
      simp only [Memory.wfAbove, Bool.and_eq_true]
      refine ⟨h.1, ih ?_ (fun x hx => hm x (by simp [hx])) h.2⟩
      rintro l ⟨rfl⟩
      omega

/-- Every write keeps the canonical form. -/
theorem Memory.wf_write {m : Memory} (h : Memory.wf m = true) (a : Nat) (b : Byte) :
    Memory.wf (Memory.write m a b) = true := by
  unfold Memory.write Memory.wf at *
  split
  · exact Memory.wfAbove_erase a h
  · next hb => exact Memory.wfAbove_insert hb (by simp) (Memory.erase_addresses m a) (Memory.wfAbove_erase a h)

/-- An address at or below the bound of a canonical memory is not listed. -/
theorem Memory.read_of_wfAbove {l a : Nat} {m : Memory} (h : Memory.wfAbove (some l) m = true) (ha : a ≤ l) :
    Memory.read m a = Memory.unlisted := by
  induction m generalizing l with
  | nil => rfl
  | cons c rest ih =>
    simp only [Memory.wfAbove, Bool.and_eq_true, Option.all_some, decide_eq_true_eq] at h
    have : c.1 ≠ a := by omega
    simp only [Memory.read, this, if_false]
    exact ih h.2 (by omega)

theorem Memory.ext_above {lo : Option Nat} {m m' : Memory} (h : Memory.wfAbove lo m = true)
    (h' : Memory.wfAbove lo m' = true) (hr : ∀ a, Memory.read m a = Memory.read m' a) : m = m' := by
  induction m generalizing lo m' with
  | nil =>
    cases m' with
    | nil => rfl
    | cons c rest =>
      exfalso
      simp only [Memory.wfAbove, Bool.and_eq_true] at h'
      have := hr c.1
      simp only [Memory.read, if_true] at this
      have hb := h'.1.2
      simp [← this] at hb
  | cons c rest ih =>
    simp only [Memory.wfAbove, Bool.and_eq_true] at h
    have hcb : c.2 ≠ Memory.unlisted := by simpa using h.1.2
    cases m' with
    | nil =>
      exfalso
      have := hr c.1
      simp only [Memory.read, if_true] at this
      exact hcb this
    | cons c' rest' =>
      simp only [Memory.wfAbove, Bool.and_eq_true] at h'
      have hcb' : c'.2 ≠ Memory.unlisted := by simpa using h'.1.2
      have hk : c.1 = c'.1 := by
        rcases Nat.lt_trichotomy c.1 c'.1 with hlt | heq | hgt
        · exfalso
          have := hr c.1
          simp only [Memory.read, if_true, show c'.1 ≠ c.1 by omega, if_false] at this
          rw [Memory.read_of_wfAbove h'.2 (by omega)] at this
          exact hcb this
        · exact heq
        · exfalso
          have := hr c'.1
          simp only [Memory.read, if_true, show c.1 ≠ c'.1 by omega, if_false] at this
          rw [Memory.read_of_wfAbove h.2 (by omega)] at this
          exact hcb' this.symm
      have hv : c.2 = c'.2 := by
        have := hr c.1
        simpa [Memory.read, hk] using this
      have hc : c = c' := Prod.ext hk hv
      subst hc
      congr 1
      refine ih h.2 h'.2 fun a => ?_
      by_cases ha : c.1 = a
      · subst ha
        rw [Memory.read_of_wfAbove h.2 le_rfl, Memory.read_of_wfAbove h'.2 le_rfl]
      · have := hr a
        simpa [Memory.read, ha] using this

/-- Two canonical memories that read alike at every address are the same data. -/
theorem Memory.ext {m m' : Memory} (h : Memory.wf m = true) (h' : Memory.wf m' = true)
    (hr : ∀ a, Memory.read m a = Memory.read m' a) : m = m' := Memory.ext_above h h' hr

/-! ### Addresses stay inside the store -/

theorem Memory.within_erase {m : Memory} {n : Nat} (h : Memory.within m n = true) (a : Nat) :
    Memory.within (Memory.erase m a) n = true := by
  simp only [Memory.within, List.all_eq_true] at h ⊢
  exact fun c hc => h c (List.mem_filter.mp hc).1

theorem Memory.within_insert {m : Memory} {n a : Nat} (h : Memory.within m n = true) (ha : a < n) (b : Byte) :
    Memory.within (Memory.insert m a b) n = true := by
  induction m with
  | nil => simpa [Memory.insert, Memory.within] using ha
  | cons c rest ih =>
    simp only [Memory.within, List.all_cons, Bool.and_eq_true] at h ih
    simp only [Memory.insert]
    split
    · simp [Memory.within, ha, h.1, h.2]
    · simp only [Memory.within, List.all_cons, Bool.and_eq_true]
      exact ⟨h.1, ih h.2⟩

/-- A write inside the store lists no address outside it. -/
theorem Memory.within_write {m : Memory} {n a : Nat} (h : Memory.within m n = true) (ha : a < n) (b : Byte) :
    Memory.within (Memory.write m a b) n = true := by
  unfold Memory.write
  split
  · exact Memory.within_erase h a
  · exact Memory.within_insert (Memory.within_erase h a) ha b

end Sys2Proof.Machine
end

