-- ==== Sys2Proof/Laws/State.lean ====
section
/-! SUPPORT. One lemma per field per update of State, so that no later proof unfolds a record update. -/

namespace Sys2Proof.Machine

variable (s : State)

@[simp] theorem State.setMem_bufLen (m : Memory) : (s.setMem m).bufLen = s.bufLen := rfl
@[simp] theorem State.setMem_mem (m : Memory) : (s.setMem m).mem = m := rfl
@[simp] theorem State.setMem_cmd (m : Memory) : (s.setMem m).cmd = s.cmd := rfl
@[simp] theorem State.setMem_status (m : Memory) : (s.setMem m).status = s.status := rfl
@[simp] theorem State.setMem_faultCmd (m : Memory) : (s.setMem m).faultCmd = s.faultCmd := rfl
@[simp] theorem State.setMem_offset (m : Memory) : (s.setMem m).offset = s.offset := rfl
@[simp] theorem State.setMem_count (m : Memory) : (s.setMem m).count = s.count := rfl
@[simp] theorem State.setMem_data (m : Memory) : (s.setMem m).data = s.data := rfl
@[simp] theorem State.setMem_acc (m : Memory) : (s.setMem m).acc = s.acc := rfl
@[simp] theorem State.setMem_vbuf (m : Memory) : (s.setMem m).vbuf = s.vbuf := rfl
@[simp] theorem State.setMem_pending (m : Memory) : (s.setMem m).pending = s.pending := rfl
@[simp] theorem State.setMem_replies (m : Memory) : (s.setMem m).replies = s.replies := rfl

@[simp] theorem State.setCmd_bufLen (w : CmdWord) : (s.setCmd w).bufLen = s.bufLen := rfl
@[simp] theorem State.setCmd_mem (w : CmdWord) : (s.setCmd w).mem = s.mem := rfl
@[simp] theorem State.setCmd_cmd (w : CmdWord) : (s.setCmd w).cmd = w := rfl
@[simp] theorem State.setCmd_status (w : CmdWord) : (s.setCmd w).status = s.status := rfl
@[simp] theorem State.setCmd_faultCmd (w : CmdWord) : (s.setCmd w).faultCmd = s.faultCmd := rfl
@[simp] theorem State.setCmd_offset (w : CmdWord) : (s.setCmd w).offset = s.offset := rfl
@[simp] theorem State.setCmd_count (w : CmdWord) : (s.setCmd w).count = s.count := rfl
@[simp] theorem State.setCmd_data (w : CmdWord) : (s.setCmd w).data = s.data := rfl
@[simp] theorem State.setCmd_acc (w : CmdWord) : (s.setCmd w).acc = s.acc := rfl
@[simp] theorem State.setCmd_vbuf (w : CmdWord) : (s.setCmd w).vbuf = s.vbuf := rfl
@[simp] theorem State.setCmd_pending (w : CmdWord) : (s.setCmd w).pending = s.pending := rfl
@[simp] theorem State.setCmd_replies (w : CmdWord) : (s.setCmd w).replies = s.replies := rfl

@[simp] theorem State.setOffset_bufLen (v : Word) : (s.setOffset v).bufLen = s.bufLen := rfl
@[simp] theorem State.setOffset_mem (v : Word) : (s.setOffset v).mem = s.mem := rfl
@[simp] theorem State.setOffset_cmd (v : Word) : (s.setOffset v).cmd = s.cmd := rfl
@[simp] theorem State.setOffset_status (v : Word) : (s.setOffset v).status = s.status := rfl
@[simp] theorem State.setOffset_faultCmd (v : Word) : (s.setOffset v).faultCmd = s.faultCmd := rfl
@[simp] theorem State.setOffset_offset (v : Word) : (s.setOffset v).offset = some v := rfl
@[simp] theorem State.setOffset_count (v : Word) : (s.setOffset v).count = s.count := rfl
@[simp] theorem State.setOffset_data (v : Word) : (s.setOffset v).data = s.data := rfl
@[simp] theorem State.setOffset_acc (v : Word) : (s.setOffset v).acc = s.acc := rfl
@[simp] theorem State.setOffset_vbuf (v : Word) : (s.setOffset v).vbuf = s.vbuf := rfl
@[simp] theorem State.setOffset_pending (v : Word) : (s.setOffset v).pending = s.pending := rfl
@[simp] theorem State.setOffset_replies (v : Word) : (s.setOffset v).replies = s.replies := rfl

@[simp] theorem State.setCount_bufLen (v : Word) : (s.setCount v).bufLen = s.bufLen := rfl
@[simp] theorem State.setCount_mem (v : Word) : (s.setCount v).mem = s.mem := rfl
@[simp] theorem State.setCount_cmd (v : Word) : (s.setCount v).cmd = s.cmd := rfl
@[simp] theorem State.setCount_status (v : Word) : (s.setCount v).status = s.status := rfl
@[simp] theorem State.setCount_faultCmd (v : Word) : (s.setCount v).faultCmd = s.faultCmd := rfl
@[simp] theorem State.setCount_offset (v : Word) : (s.setCount v).offset = s.offset := rfl
@[simp] theorem State.setCount_count (v : Word) : (s.setCount v).count = some v := rfl
@[simp] theorem State.setCount_data (v : Word) : (s.setCount v).data = s.data := rfl
@[simp] theorem State.setCount_acc (v : Word) : (s.setCount v).acc = s.acc := rfl
@[simp] theorem State.setCount_vbuf (v : Word) : (s.setCount v).vbuf = s.vbuf := rfl
@[simp] theorem State.setCount_pending (v : Word) : (s.setCount v).pending = s.pending := rfl
@[simp] theorem State.setCount_replies (v : Word) : (s.setCount v).replies = s.replies := rfl

@[simp] theorem State.setData_bufLen (v : Word) : (s.setData v).bufLen = s.bufLen := rfl
@[simp] theorem State.setData_mem (v : Word) : (s.setData v).mem = s.mem := rfl
@[simp] theorem State.setData_cmd (v : Word) : (s.setData v).cmd = s.cmd := rfl
@[simp] theorem State.setData_status (v : Word) : (s.setData v).status = s.status := rfl
@[simp] theorem State.setData_faultCmd (v : Word) : (s.setData v).faultCmd = s.faultCmd := rfl
@[simp] theorem State.setData_offset (v : Word) : (s.setData v).offset = s.offset := rfl
@[simp] theorem State.setData_count (v : Word) : (s.setData v).count = s.count := rfl
@[simp] theorem State.setData_data (v : Word) : (s.setData v).data = some v := rfl
@[simp] theorem State.setData_acc (v : Word) : (s.setData v).acc = s.acc := rfl
@[simp] theorem State.setData_vbuf (v : Word) : (s.setData v).vbuf = s.vbuf := rfl
@[simp] theorem State.setData_pending (v : Word) : (s.setData v).pending = s.pending := rfl
@[simp] theorem State.setData_replies (v : Word) : (s.setData v).replies = s.replies := rfl

@[simp] theorem State.setAcc_bufLen (v : Word) : (s.setAcc v).bufLen = s.bufLen := rfl
@[simp] theorem State.setAcc_mem (v : Word) : (s.setAcc v).mem = s.mem := rfl
@[simp] theorem State.setAcc_cmd (v : Word) : (s.setAcc v).cmd = s.cmd := rfl
@[simp] theorem State.setAcc_status (v : Word) : (s.setAcc v).status = s.status := rfl
@[simp] theorem State.setAcc_faultCmd (v : Word) : (s.setAcc v).faultCmd = s.faultCmd := rfl
@[simp] theorem State.setAcc_offset (v : Word) : (s.setAcc v).offset = s.offset := rfl
@[simp] theorem State.setAcc_count (v : Word) : (s.setAcc v).count = s.count := rfl
@[simp] theorem State.setAcc_data (v : Word) : (s.setAcc v).data = s.data := rfl
@[simp] theorem State.setAcc_acc (v : Word) : (s.setAcc v).acc = some v := rfl
@[simp] theorem State.setAcc_vbuf (v : Word) : (s.setAcc v).vbuf = s.vbuf := rfl
@[simp] theorem State.setAcc_pending (v : Word) : (s.setAcc v).pending = s.pending := rfl
@[simp] theorem State.setAcc_replies (v : Word) : (s.setAcc v).replies = s.replies := rfl

@[simp] theorem State.setEntry_bufLen (j : Nat) (v : Word) : (s.setEntry j v).bufLen = s.bufLen := rfl
@[simp] theorem State.setEntry_mem (j : Nat) (v : Word) : (s.setEntry j v).mem = s.mem := rfl
@[simp] theorem State.setEntry_cmd (j : Nat) (v : Word) : (s.setEntry j v).cmd = s.cmd := rfl
@[simp] theorem State.setEntry_status (j : Nat) (v : Word) : (s.setEntry j v).status = s.status := rfl
@[simp] theorem State.setEntry_faultCmd (j : Nat) (v : Word) : (s.setEntry j v).faultCmd = s.faultCmd := rfl
@[simp] theorem State.setEntry_offset (j : Nat) (v : Word) : (s.setEntry j v).offset = s.offset := rfl
@[simp] theorem State.setEntry_count (j : Nat) (v : Word) : (s.setEntry j v).count = s.count := rfl
@[simp] theorem State.setEntry_data (j : Nat) (v : Word) : (s.setEntry j v).data = s.data := rfl
@[simp] theorem State.setEntry_acc (j : Nat) (v : Word) : (s.setEntry j v).acc = s.acc := rfl
@[simp] theorem State.setEntry_vbuf (j : Nat) (v : Word) : (s.setEntry j v).vbuf = s.vbuf.set j (some v) := rfl
@[simp] theorem State.setEntry_pending (j : Nat) (v : Word) : (s.setEntry j v).pending = s.pending := rfl
@[simp] theorem State.setEntry_replies (j : Nat) (v : Word) : (s.setEntry j v).replies = s.replies := rfl

@[simp] theorem State.setPending_bufLen (ms : List HostMove) : (s.setPending ms).bufLen = s.bufLen := rfl
@[simp] theorem State.setPending_mem (ms : List HostMove) : (s.setPending ms).mem = s.mem := rfl
@[simp] theorem State.setPending_cmd (ms : List HostMove) : (s.setPending ms).cmd = s.cmd := rfl
@[simp] theorem State.setPending_status (ms : List HostMove) : (s.setPending ms).status = s.status := rfl
@[simp] theorem State.setPending_faultCmd (ms : List HostMove) : (s.setPending ms).faultCmd = s.faultCmd := rfl
@[simp] theorem State.setPending_offset (ms : List HostMove) : (s.setPending ms).offset = s.offset := rfl
@[simp] theorem State.setPending_count (ms : List HostMove) : (s.setPending ms).count = s.count := rfl
@[simp] theorem State.setPending_data (ms : List HostMove) : (s.setPending ms).data = s.data := rfl
@[simp] theorem State.setPending_acc (ms : List HostMove) : (s.setPending ms).acc = s.acc := rfl
@[simp] theorem State.setPending_vbuf (ms : List HostMove) : (s.setPending ms).vbuf = s.vbuf := rfl
@[simp] theorem State.setPending_pending (ms : List HostMove) : (s.setPending ms).pending = ms := rfl
@[simp] theorem State.setPending_replies (ms : List HostMove) : (s.setPending ms).replies = s.replies := rfl

@[simp] theorem State.addReply_bufLen (r : Reply) : (s.addReply r).bufLen = s.bufLen := rfl
@[simp] theorem State.addReply_mem (r : Reply) : (s.addReply r).mem = s.mem := rfl
@[simp] theorem State.addReply_cmd (r : Reply) : (s.addReply r).cmd = s.cmd := rfl
@[simp] theorem State.addReply_status (r : Reply) : (s.addReply r).status = s.status := rfl
@[simp] theorem State.addReply_faultCmd (r : Reply) : (s.addReply r).faultCmd = s.faultCmd := rfl
@[simp] theorem State.addReply_offset (r : Reply) : (s.addReply r).offset = s.offset := rfl
@[simp] theorem State.addReply_count (r : Reply) : (s.addReply r).count = s.count := rfl
@[simp] theorem State.addReply_data (r : Reply) : (s.addReply r).data = s.data := rfl
@[simp] theorem State.addReply_acc (r : Reply) : (s.addReply r).acc = s.acc := rfl
@[simp] theorem State.addReply_vbuf (r : Reply) : (s.addReply r).vbuf = s.vbuf := rfl
@[simp] theorem State.addReply_pending (r : Reply) : (s.addReply r).pending = s.pending := rfl
@[simp] theorem State.addReply_replies (r : Reply) : (s.addReply r).replies = s.replies ++ [r] := rfl

@[simp] theorem State.takeFault_bufLen (c : Cause) : (s.takeFault c).bufLen = s.bufLen := rfl
@[simp] theorem State.takeFault_mem (c : Cause) : (s.takeFault c).mem = s.mem := rfl
@[simp] theorem State.takeFault_cmd (c : Cause) : (s.takeFault c).cmd = s.cmd := rfl
@[simp] theorem State.takeFault_status (c : Cause) : (s.takeFault c).status = c.statusWord := rfl
@[simp] theorem State.takeFault_faultCmd (c : Cause) : (s.takeFault c).faultCmd = s.cmd := rfl
@[simp] theorem State.takeFault_offset (c : Cause) : (s.takeFault c).offset = s.offset := rfl
@[simp] theorem State.takeFault_count (c : Cause) : (s.takeFault c).count = s.count := rfl
@[simp] theorem State.takeFault_data (c : Cause) : (s.takeFault c).data = s.data := rfl
@[simp] theorem State.takeFault_acc (c : Cause) : (s.takeFault c).acc = s.acc := rfl
@[simp] theorem State.takeFault_vbuf (c : Cause) : (s.takeFault c).vbuf = s.vbuf := rfl
@[simp] theorem State.takeFault_pending (c : Cause) : (s.takeFault c).pending = s.pending := rfl
@[simp] theorem State.takeFault_replies (c : Cause) : (s.takeFault c).replies = s.replies := rfl

@[simp] theorem State.applyReset_bufLen : (s.applyReset).bufLen = s.bufLen := rfl
@[simp] theorem State.applyReset_mem : (s.applyReset).mem = s.mem := rfl
@[simp] theorem State.applyReset_cmd : (s.applyReset).cmd = 0 := rfl
@[simp] theorem State.applyReset_status : (s.applyReset).status = 0 := rfl
@[simp] theorem State.applyReset_faultCmd : (s.applyReset).faultCmd = 0 := rfl
@[simp] theorem State.applyReset_offset : (s.applyReset).offset = none := rfl
@[simp] theorem State.applyReset_count : (s.applyReset).count = none := rfl
@[simp] theorem State.applyReset_data : (s.applyReset).data = none := rfl
@[simp] theorem State.applyReset_acc : (s.applyReset).acc = none := rfl
@[simp] theorem State.applyReset_vbuf : (s.applyReset).vbuf = List.replicate s.vbufLen none := rfl
@[simp] theorem State.applyReset_pending : (s.applyReset).pending = s.pending := rfl
@[simp] theorem State.applyReset_replies : (s.applyReset).replies = s.replies := rfl

@[simp] theorem State.vbufLen_setMem (m : Memory) : (s.setMem m).vbufLen = s.vbufLen := rfl
@[simp] theorem State.vbufLen_setAcc (v : Word) : (s.setAcc v).vbufLen = s.vbufLen := rfl
@[simp] theorem State.vbufLen_setEntry (j : Nat) (v : Word) : (s.setEntry j v).vbufLen = s.vbufLen := by
  simp [State.vbufLen]
@[simp] theorem State.vbufLen_takeFault (c : Cause) : (s.takeFault c).vbufLen = s.vbufLen := rfl
@[simp] theorem State.vbufLen_applyReset : s.applyReset.vbufLen = s.vbufLen := by simp [State.vbufLen]
@[simp] theorem State.setMem_mem_self : s.setMem s.mem = s := rfl
@[simp] theorem State.setMem_setMem (m m' : Memory) : (s.setMem m).setMem m' = s.setMem m' := rfl
@[simp] theorem State.setAcc_setAcc (v v' : Word) : (s.setAcc v).setAcc v' = s.setAcc v' := rfl
@[simp] theorem State.takeFault_takeFault (c : Cause) : (s.takeFault c).takeFault c = s.takeFault c := rfl

/-- The STATUS word of a cause: FAULT set, CAUSE its code, the reserved bits zero (R24, R208). -/
theorem Cause.statusWord_fields (c : Cause) :
    c.statusWord.getLsbD 0 = true ∧ c.statusWord.extractLsb' 1 3 = c.code ∧ c.statusWord.extractLsb' 4 28 = 0 := by
  cases c <;> decide

/-- A recorded fault sets the latch (R208). -/
@[simp] theorem State.faulted_takeFault (c : Cause) : (s.takeFault c).faulted = true := by
  simpa [State.faulted] using c.statusWord_fields.1

@[simp] theorem State.faulted_applyReset : s.applyReset.faulted = false := by simp [State.faulted]

/-- No cause is recorded by a zero STATUS word. -/
theorem Cause.statusWord_ne_zero (c : Cause) : c.statusWord ≠ 0 := by cases c <;> decide

end Sys2Proof.Machine
end

