-- ==== Sys2Proof/Laws/Ops.lean ====
section
/-! SUPPORT. One lemma per shared operation that says all it can do: the access primitives inside the store, and what the
end of a command can be. -/

namespace Sys2Proof.Machine

/-! ### Peeling a computation apart -/

theorem bind_eq_ok_iff {α β : Type} {x : Except Stop α} {f : α → Except Stop β} {r : β} :
    (x >>= f) = .ok r ↔ ∃ a, x = .ok a ∧ f a = .ok r := by
  cases x <;> simp [bind, Except.bind]

theorem bind_eq_error_iff {α β : Type} {x : Except Stop α} {f : α → Except Stop β} {e : Stop} :
    (x >>= f) = .error e ↔ x = .error e ∨ ∃ a, x = .ok a ∧ f a = .error e := by
  cases x <;> simp [bind, Except.bind]

@[simp] theorem ok_bind {α β : Type} (a : α) (f : α → Except Stop β) : ((.ok a : Except Stop α) >>= f) = f a := rfl

@[simp] theorem error_bind {α β : Type} (e : Stop) (f : α → Except Stop β) :
    ((.error e : Except Stop α) >>= f) = .error e := rfl

@[simp] theorem pure_eq_ok {α : Type} (a : α) : (pure a : Except Stop α) = .ok a := rfl

/-! ### The end of a command -/

@[simp] theorem State.settle_ok (s t : State) : s.settle (.ok t) = .next t := rfl

@[simp] theorem State.settle_raise (s : State) (c : Cause) : s.settle (.error (.raise c)) = .next (s.takeFault c) := rfl

/-- A command answers a next state in one of two ways: it succeeded, or it recorded a fault (R14, R208). -/
theorem State.settle_eq_next_iff {s t : State} {r : Except Stop State} :
    s.settle r = .next t ↔ r = .ok t ∨ ∃ c, r = .error (.raise c) ∧ t = s.takeFault c := by
  cases r with
  | ok u => simp [State.settle]
  | error e => cases e <;> simp [State.settle, eq_comm]

/-! ### Memory reached by writes inside the store -/

/-- `m'` comes from `m` by writes at addresses below `n`. -/
inductive Memory.Reaches (n : Nat) (m : Memory) : Memory → Prop
  | refl : Memory.Reaches n m m
  | write {m' : Memory} (h : Memory.Reaches n m m') (a : Nat) (b : Byte) (ha : a < n) :
    Memory.Reaches n m (Memory.write m' a b)

theorem Memory.Reaches.trans {n : Nat} {m m' m'' : Memory} (h : Memory.Reaches n m m') (h' : Memory.Reaches n m' m'') :
    Memory.Reaches n m m'' := by
  induction h' with
  | refl => exact h
  | write _ a b ha ih => exact .write ih a b ha

theorem Memory.Reaches.wf {n : Nat} {m m' : Memory} (h : Memory.Reaches n m m') (hm : Memory.wf m = true) :
    Memory.wf m' = true := by
  induction h with
  | refl => exact hm
  | write _ a b _ ih => exact Memory.wf_write ih a b

theorem Memory.Reaches.within {n : Nat} {m m' : Memory} (h : Memory.Reaches n m m') (hm : Memory.within m n = true) :
    Memory.within m' n = true := by
  induction h with
  | refl => exact hm
  | write _ a b ha ih => exact Memory.within_write ih ha b

theorem Memory.Reaches.read_outside {n : Nat} {m m' : Memory} (h : Memory.Reaches n m m') {a : Nat} (ha : n ≤ a) :
    Memory.read m' a = Memory.read m a := by
  induction h with
  | refl => rfl
  | write _ k b hk ih => rw [Memory.read_write_other _ _ (by omega), ih]

/-! ### Byte accesses -/

@[simp] theorem State.byteAt_setMem (s : State) (m : Memory) (a : Nat) : (s.setMem m).byteAt a = Memory.read m a := rfl

theorem State.readByte_inside {s : State} {a : Nat} (h : a < s.bufLen) : s.readByte a = .ok (s.byteAt a) := by
  simp [State.readByte, h, State.byteAt]

theorem State.writeByte_inside {s : State} {a : Nat} (h : a < s.bufLen) (b : Byte) :
    s.writeByte a b = .ok (s.setMem (Memory.write s.mem a b)) := by
  simp [State.writeByte, h]

/-- MemRead inside the store (R11). -/
theorem State.memRead_inside {s : State} {a n : Nat} (h : a + n ≤ s.bufLen) :
    s.memRead a n = .ok ((List.range n).map fun i => s.byteAt (a + i)) := by
  induction n generalizing a with
  | zero => rfl
  | succ k ih =>
    simp only [State.memRead]
    rw [State.readByte_inside (by omega), ok_bind, ih (by omega), ok_bind]
    simp only [pure_eq_ok, List.range_succ_eq_map, List.map_cons, List.map_map, Nat.add_zero]
    congr 2
    refine List.map_congr_left fun i _ => ?_
    simp only [Function.comp]
    congr 1
    omega

/-- The memory after `bs` are written from address `a` up. -/
def Memory.writeBytes (m : Memory) (a : Nat) (bs : List Byte) : Memory :=
  match bs with
  | [] => m
  | b :: rest => Memory.writeBytes (Memory.write m a b) (a + 1) rest

/-- MemWrite inside the store (R11). -/
theorem State.memWrite_inside {s : State} {a : Nat} {bs : List Byte} (h : a + bs.length ≤ s.bufLen) :
    s.memWrite a bs = .ok (s.setMem (Memory.writeBytes s.mem a bs)) := by
  induction bs generalizing s a with
  | nil => rfl
  | cons b rest ih =>
    simp only [List.length_cons] at h
    simp only [State.memWrite]
    rw [State.writeByte_inside (by omega), ok_bind, ih (by simp; omega)]
    rfl

theorem Memory.writeBytes_reaches {n : Nat} (m : Memory) {a : Nat} {bs : List Byte} (h : a + bs.length ≤ n) :
    Memory.Reaches n m (Memory.writeBytes m a bs) := by
  induction bs generalizing m a with
  | nil => exact .refl
  | cons b rest ih =>
    simp only [List.length_cons] at h
    exact (Memory.Reaches.write .refl a b (by omega)).trans (ih _ (by omega))

/-- What every address reads as after MemWrite: `bs[i]` at `a + i`, and no other byte changes (R11). -/
theorem Memory.read_writeBytes (m : Memory) (a a' : Nat) (bs : List Byte) :
    Memory.read (Memory.writeBytes m a bs) a' =
      if a ≤ a' ∧ a' < a + bs.length then bs.getD (a' - a) 0#8 else Memory.read m a' := by
  induction bs generalizing m a with
  | nil => simp [Memory.writeBytes]
  | cons b rest ih =>
    simp only [Memory.writeBytes, ih, Memory.read_write, List.length_cons]
    by_cases h0 : a' = a
    · subst h0
      simp
    · by_cases h1 : a + 1 ≤ a' ∧ a' < a + 1 + rest.length
      · rw [if_pos h1, if_pos (by omega), show a' - a = (a' - (a + 1)) + 1 by omega, List.getD_cons_succ]
      · rw [if_neg h1, if_neg h0, if_neg (by omega)]

/-! ### Bit accesses -/

theorem streamBit_eq (s : State) (k : Nat) : streamBit (s.byteAt (k / 8)) k = s.bitAt k := rfl

theorem State.bitRead_inside {s : State} {k : Nat} (h : k < 8 * s.bufLen) : s.bitRead k = .ok (s.bitAt k) := by
  simp only [State.bitRead]
  rw [State.readByte_inside (by omega), ok_bind]
  rfl

/-- Writing one bit of a byte: that bit becomes `v`, the other seven keep their values (R12). -/
theorem streamBit_byteWithBit (b : Byte) (k k' : Nat) (v : Bool) :
    streamBit (byteWithBit b k v) k' = if k' % 8 = k % 8 then v else streamBit b k' := by
  have hk : k % 8 < 8 := Nat.mod_lt _ (by omega)
  have hk' : k' % 8 < 8 := Nat.mod_lt _ (by omega)
  unfold streamBit byteWithBit bitMask
  generalize k % 8 = i at *
  generalize k' % 8 = j at *
  by_cases hij : j = i
  · subst hij
    cases v
    · simp [BitVec.getLsbD_shiftLeft]
    · simp [BitVec.getLsbD_shiftLeft]
      omega
  · have h : ¬(7 - j < 8 ∧ ¬7 - j < 7 - i ∧ 7 - j - (7 - i) = 0) := by omega
    rw [if_neg hij]
    cases v <;> simp [BitVec.getLsbD_shiftLeft] <;> omega

/-- The memory after bit `k` is written with `v`. -/
def Memory.writeBit (m : Memory) (k : Nat) (v : Bool) : Memory :=
  Memory.write m (k / 8) (byteWithBit (Memory.read m (k / 8)) k v)

theorem State.bitWrite_inside {s : State} {k : Nat} (h : k < 8 * s.bufLen) (v : Bool) :
    s.bitWrite k v = .ok (s.setMem (Memory.writeBit s.mem k v)) := by
  simp only [State.bitWrite]
  rw [State.readByte_inside (by omega), ok_bind, State.writeByte_inside (by omega)]
  rfl

/-- Every bit of the store after one bit is written (R12). -/
theorem State.bitAt_writeBit (s : State) (k k' : Nat) (v : Bool) :
    (s.setMem (Memory.writeBit s.mem k v)).bitAt k' = if k' = k then v else s.bitAt k' := by
  unfold State.bitAt
  rw [State.byteAt_setMem, Memory.writeBit, Memory.read_write]
  by_cases hb : k' / 8 = k / 8
  · rw [if_pos hb]
    have := streamBit_byteWithBit (Memory.read s.mem (k / 8)) k k' v
    unfold streamBit at this
    rw [this]
    by_cases hkk : k' = k
    · rw [if_pos (by rw [hkk]), if_pos hkk]
    · rw [if_neg (by omega), if_neg hkk, State.byteAt, hb]
  · rw [if_neg hb, if_neg (by rintro rfl; exact hb rfl)]
    rfl

theorem Memory.writeBit_reaches {n : Nat} (m : Memory) {k : Nat} (h : k < 8 * n) (v : Bool) :
    Memory.Reaches n m (Memory.writeBit m k v) := .write .refl _ _ (by omega)

/-- A byte is fixed by its eight bits in stream order (R61). -/
theorem byte_ext_streamBit {b b' : Byte} (h : ∀ j < 8, streamBit b j = streamBit b' j) : b = b' := by
  refine BitVec.eq_of_getLsbD_eq fun i hi => ?_
  have := h (7 - i) (by omega)
  unfold streamBit at this
  rwa [show 7 - (7 - i) % 8 = i by omega] at this

/-- Two stores that agree on every bit agree on every byte. -/
theorem State.byteAt_of_bitAt {s t : State} {a : Nat} (h : ∀ j < 8, s.bitAt (8 * a + j) = t.bitAt (8 * a + j)) :
    s.byteAt a = t.byteAt a := by
  refine byte_ext_streamBit fun j hj => ?_
  have := h j hj
  unfold State.bitAt at this
  unfold streamBit
  rwa [show (8 * a + j) / 8 = a by omega, show (8 * a + j) % 8 = j by omega, show 7 - j = 7 - j % 8 by omega] at this

/-! ### VBUF -/

theorem State.writeEntry_inside {s : State} {j : Nat} (h : j < s.vbufLen) (v : Word) :
    s.writeEntry j v = .ok (s.setEntry j v) := by
  simp [State.writeEntry, h]

/-! ### The whole store -/

/-- The memory after `f` is applied to every byte below `n`. -/
def Memory.mapBelow (f : Byte → Byte) (n : Nat) (m : Memory) : Memory :=
  match n with
  | 0 => m
  | k + 1 => Memory.write (Memory.mapBelow f k m) k (f (Memory.read (Memory.mapBelow f k m) k))

theorem State.mapBytes_inside {s : State} (f : Byte → Byte) {n : Nat} (h : n ≤ s.bufLen) :
    s.mapBytes f n = .ok (s.setMem (Memory.mapBelow f n s.mem)) := by
  induction n with
  | zero => rfl
  | succ k ih =>
    simp only [State.mapBytes]
    rw [ih (by omega), ok_bind, State.readByte_inside (by simpa using h), ok_bind,
      State.writeByte_inside (by simpa using h)]
    rfl

theorem Memory.mapBelow_reaches (f : Byte → Byte) {n N : Nat} (m : Memory) (h : n ≤ N) :
    Memory.Reaches N m (Memory.mapBelow f n m) := by
  induction n with
  | zero => exact .refl
  | succ k ih => exact .write (ih (by omega)) _ _ (by omega)

/-- Every byte below `n` becomes `f` of itself, and no other byte changes. -/
theorem Memory.read_mapBelow (f : Byte → Byte) (n : Nat) (m : Memory) (a : Nat) :
    Memory.read (Memory.mapBelow f n m) a = if a < n then f (Memory.read m a) else Memory.read m a := by
  induction n with
  | zero => simp [Memory.mapBelow]
  | succ k ih =>
    have hk : Memory.read (Memory.mapBelow f k m) k = Memory.read m k := by
      exact (Memory.mapBelow_reaches f m le_rfl).read_outside le_rfl
    rw [Memory.mapBelow, Memory.read_write, hk]
    by_cases h : a = k
    · subst h
      simp
    · rw [if_neg h, ih]
      by_cases h2 : a < k
      · rw [if_pos h2, if_pos (by omega)]
      · rw [if_neg h2, if_neg (by omega)]

end Sys2Proof.Machine
end

