-- ==== Sys2Proof/Laws/Operands.lean ====
section
/-! SUPPORT. What the operand checks answer: the operands when every check passes, else the one fault that comes first
(R207). -/

namespace Sys2Proof.Machine

/-! ### Each check, passed and failed -/

@[simp] theorem need_some (v : Word) : need (some v) = .ok v := rfl

@[simp] theorem need_none : need none = .error (.raise .uninitializedOperand) := rfl

theorem fieldCount_ok {v : Word} {n : Nat} (h : v.toInt = (n : Int)) (hn : n ≤ 64) : fieldCount v = .ok n := by
  unfold fieldCount sint
  rw [if_pos (by omega), h, Int.toNat_natCast]

theorem fieldCount_bad {v : Word} (h : v.toInt < 0 ∨ 64 < v.toInt) : fieldCount v = .error (.raise .badCount) := by
  unfold fieldCount sint
  rw [if_neg (by omega)]

theorem vectorCount_ok {v : Word} {n : Nat} (h : v.toInt = (n : Int)) : vectorCount v = .ok n := by
  unfold vectorCount sint
  rw [if_pos (by omega), h, Int.toNat_natCast]

theorem vectorCount_bad {v : Word} (h : v.toInt < 0) : vectorCount v = .error (.raise .badCount) := by
  unfold vectorCount sint
  rw [if_neg (by omega)]

theorem storeRange_ok {off : Word} {k len lim : Nat} (h : off.toInt = (k : Int)) (hle : k + len ≤ lim) :
    storeRange off len lim = .ok k := by
  unfold storeRange sint
  rw [if_pos (by omega), h, Int.toNat_natCast]

theorem storeRange_bad {off : Word} {len lim : Nat} (h : off.toInt < 0 ∨ (lim : Int) < off.toInt + len) :
    storeRange off len lim = .error (.raise .storeOutOfBounds) := by
  unfold storeRange sint
  rw [if_neg (by omega)]

theorem State.vbufRange_ok {s : State} {n : Nat} (h : n ≤ s.vbuf.length) : s.vbufRange n = .ok () := if_pos h

theorem State.vbufRange_bad {s : State} {n : Nat} (h : s.vbuf.length < n) :
    s.vbufRange n = .error (.raise .vbufOutOfBounds) := if_neg (by rw [State.vbufLen]; omega)

/-! ### One bit -/

/-- The checks of READ_BIT, SET_BIT and CLEAR_BIT pass (R121, R126, R131). -/
theorem State.bitOperand_ready {s : State} {k : Nat} (h : s.BitReady k) : s.bitOperand = .ok k := by
  obtain ⟨off, ho, hk, hlt⟩ := h
  simp [State.bitOperand, ho, storeRange_ok hk (show k + 1 ≤ 8 * s.bufLen by omega)]

/-- All the checks on one bit can do: pass, or raise one of two causes. -/
theorem State.bitOperand_cases (s : State) :
    (∃ k, s.BitReady k ∧ s.bitOperand = .ok k) ∨
      ∃ c, (c = .uninitializedOperand ∨ c = .storeOutOfBounds) ∧ s.bitOperand = .error (.raise c) := by
  cases ho : s.offset with
  | none => exact .inr ⟨.uninitializedOperand, .inl rfl, by simp [State.bitOperand, ho]⟩
  | some off =>
    by_cases h : off.toInt < 0 ∨ ((8 * s.bufLen : Nat) : Int) < off.toInt + (1 : Nat)
    · exact .inr ⟨.storeOutOfBounds, .inr rfl, by simp [State.bitOperand, ho, storeRange_bad h]⟩
    · have hr : s.BitReady off.toInt.toNat := ⟨off, ho, by omega, by omega⟩
      exact .inl ⟨_, hr, State.bitOperand_ready hr⟩

/-! ### A bit field -/

/-- The checks of READ_BITS and SET_BITS pass (R111, R116). -/
theorem State.fieldOperands_ready {s : State} {k n : Nat} {third : Option Word} {v : Word} (h : s.FieldReady k n)
    (hv : third = some v) : s.fieldOperands third = .ok (k, n, v) := by
  obtain ⟨off, cnt, ho, hc, hk, hn, h64, hle⟩ := h
  simp [State.fieldOperands, ho, hc, hv, fieldCount_ok hn h64, storeRange_ok hk hle]

/-- All the checks on a bit field can do: pass, or raise one of three causes. -/
theorem State.fieldOperands_cases (s : State) (third : Option Word) :
    (∃ k n v, s.FieldReady k n ∧ third = some v ∧ s.fieldOperands third = .ok (k, n, v)) ∨
      ∃ c, (c = .uninitializedOperand ∨ c = .badCount ∨ c = .storeOutOfBounds) ∧
        s.fieldOperands third = .error (.raise c) := by
  cases ho : s.offset with
  | none => exact .inr ⟨_, .inl rfl, by simp [State.fieldOperands, ho]⟩
  | some off =>
    cases hc : s.count with
    | none => exact .inr ⟨_, .inl rfl, by simp [State.fieldOperands, ho, hc]⟩
    | some cnt =>
      cases hv : third with
      | none => exact .inr ⟨_, .inl rfl, by simp [State.fieldOperands, ho, hc]⟩
      | some v =>
        by_cases hn : cnt.toInt < 0 ∨ 64 < cnt.toInt
        · exact .inr ⟨_, .inr (.inl rfl), by simp [State.fieldOperands, ho, hc, fieldCount_bad hn]⟩
        · have hn' : cnt.toInt = (cnt.toInt.toNat : Int) := by omega
          by_cases h : off.toInt < 0 ∨ ((8 * s.bufLen : Nat) : Int) < off.toInt + cnt.toInt.toNat
          · refine .inr ⟨_, .inr (.inr rfl), ?_⟩
            simp [State.fieldOperands, ho, hc, fieldCount_ok hn' (by omega), storeRange_bad h]
          · have hr : s.FieldReady off.toInt.toNat cnt.toInt.toNat :=
              ⟨off, cnt, ho, hc, by omega, hn', by omega, by omega⟩
            exact .inl ⟨_, _, v, hr, rfl, State.fieldOperands_ready hr rfl⟩

/-! ### A vector -/

/-- The checks (1) to (4) of a command with a vector operand pass (R161, R163, R181). -/
theorem State.vectorRange_ready {s : State} {size a n : Nat} (h : s.VectorReady size a n) :
    s.vectorRange size = .ok (a, n) := by
  obtain ⟨off, cnt, ho, hc, ha, hn, hle, hv⟩ := h
  simp [State.vectorRange, ho, hc, vectorCount_ok hn, storeRange_ok ha hle, State.vbufRange_ok hv]

/-- All the checks (1) to (4) can do: pass, or raise one of four causes. -/
theorem State.vectorRange_cases (s : State) (size : Nat) :
    (∃ a n, s.VectorReady size a n ∧ s.vectorRange size = .ok (a, n)) ∨
      ∃ c, (c = .uninitializedOperand ∨ c = .badCount ∨ c = .storeOutOfBounds ∨ c = .vbufOutOfBounds) ∧
        s.vectorRange size = .error (.raise c) := by
  cases ho : s.offset with
  | none => exact .inr ⟨_, .inl rfl, by simp [State.vectorRange, ho]⟩
  | some off =>
    cases hc : s.count with
    | none => exact .inr ⟨_, .inl rfl, by simp [State.vectorRange, ho, hc]⟩
    | some cnt =>
      by_cases hn : cnt.toInt < 0
      · exact .inr ⟨_, .inr (.inl rfl), by simp [State.vectorRange, ho, hc, vectorCount_bad hn]⟩
      · have hn' : cnt.toInt = (cnt.toInt.toNat : Int) := by omega
        by_cases h : off.toInt < 0 ∨ (s.bufLen : Int) < off.toInt + (cnt.toInt.toNat * size : Nat)
        · exact .inr ⟨_, .inr (.inr (.inl rfl)), by simp [State.vectorRange, ho, hc, vectorCount_ok hn', storeRange_bad h]⟩
        · have ha : off.toInt = (off.toInt.toNat : Int) := by omega
          have hle : off.toInt.toNat + cnt.toInt.toNat * size ≤ s.bufLen := by omega
          by_cases hv : s.vbuf.length < cnt.toInt.toNat
          · refine .inr ⟨_, .inr (.inr (.inr rfl)), ?_⟩
            simp [State.vectorRange, ho, hc, vectorCount_ok hn', storeRange_ok ha hle, State.vbufRange_bad hv]
          · have hr : s.VectorReady size off.toInt.toNat cnt.toInt.toNat := ⟨off, cnt, ho, hc, ha, hn', hle, by omega⟩
            exact .inl ⟨_, _, hr, State.vectorRange_ready hr⟩

/-- The checks (1) to (4) see VBUF by its length alone (R67). -/
theorem State.vectorRange_vbuf {s : State} {vb : List (Option Word)} (h : vb.length = s.vbuf.length) (size : Nat) :
    ({ s with vbuf := vb } : State).vectorRange size = s.vectorRange size := by
  have hr (n : Nat) : ({ s with vbuf := vb } : State).vbufRange n = s.vbufRange n :=
    if_congr (by simp [State.vbufLen, h]) rfl rfl
  simp only [State.vectorRange, hr]

theorem allWritten_eq_some_iff {es : List (Option Word)} {vs : List Word} :
    allWritten es = some vs ↔ es = vs.map some := by
  induction es generalizing vs with
  | nil => cases vs <;> simp [allWritten]
  | cons e rest ih =>
    cases e with
    | none => cases vs <;> simp [allWritten]
    | some v => cases vs <;> simp [allWritten, ih, and_comm]

/-- The entries a write reads are all written (R163 (5), R181 (5)). -/
theorem State.vectorOperand_ready {s : State} {vs : List Word} (h : s.EntriesHold vs) :
    s.vectorOperand vs.length = .ok vs := by
  simp [State.vectorOperand, allWritten_eq_some_iff.mpr h]

/-- All the check on the entries can do, once the range check has passed. -/
theorem State.vectorOperand_cases (s : State) {n : Nat} (hn : n ≤ s.vbuf.length) :
    (∃ vs, vs.length = n ∧ s.EntriesHold vs ∧ s.vectorOperand n = .ok vs) ∨
      s.vectorOperand n = .error (.raise .uninitializedOperand) := by
  cases h : allWritten (s.vbuf.take n) with
  | none => exact .inr (by simp [State.vectorOperand, h])
  | some vs =>
    have he := allWritten_eq_some_iff.mp h
    have hl : vs.length = n := by
      have := congrArg List.length he
      simp only [List.length_take, List.length_map] at this
      omega
    refine .inl ⟨vs, hl, ?_, by simp [State.vectorOperand, h]⟩
    rw [State.EntriesHold, hl, he]

end Sys2Proof.Machine
end

