-- ==== Sys2Proof/Laws/BitCodec.lean ====
section
/-! SUPPORT. The bit_codec_engine: the two bit loops in closed form, and all each command can do. -/

namespace Sys2Proof.Machine

/-! ### The loop of READ_BITS -/

theorem State.fieldAt_succ (s : State) (k n : Nat) :
    s.fieldAt k (n + 1) = (s.bitAt k).toNat * 2 ^ n + s.fieldAt (k + 1) n := by
  simp only [State.fieldAt]
  rw [Finset.sum_range_succ', add_comm]
  congr 1
  refine Finset.sum_congr rfl fun i hi => ?_
  have := Finset.mem_range.mp hi
  rw [show k + (i + 1) = k + 1 + i by omega, show n + 1 - 1 - (i + 1) = n - 1 - i by omega]

/-- The field is an `n`-bit number. -/
theorem State.fieldAt_lt (s : State) (k n : Nat) : s.fieldAt k n < 2 ^ n := by
  induction n generalizing k with
  | zero => simp [State.fieldAt]
  | succ n ih =>
    rw [State.fieldAt_succ, pow_succ]
    have := ih (k + 1)
    cases s.bitAt k <;> simp <;> omega

/-- One round of the loop, as arithmetic: the shift makes room for the bit, so OR adds it. -/
theorem shiftIn_bit (acc : Word) (b : Bool) :
    (acc <<< 1) ||| (BitVec.ofBool b).setWidth 64 = BitVec.ofNat 64 (acc.toNat * 2 + b.toNat) := by
  have h : (acc <<< 1) ||| (BitVec.ofBool b).setWidth 64 = (acc <<< 1) + (BitVec.ofBool b).setWidth 64 := by
    refine (BitVec.add_eq_or_of_and_eq_zero _ _ ?_).symm
    refine BitVec.eq_of_getLsbD_eq fun i hi => ?_
    cases b <;> simp
    intro h1
    omega
  rw [h]
  refine BitVec.eq_of_toNat_eq ?_
  cases b <;> simp [BitVec.toNat_shiftLeft, Nat.shiftLeft_eq]

/-- READ_BITS's loop in closed form: `uint(acc) * 2^n + F`, mod 2^64 (R112). -/
theorem State.readField_inside {s : State} {k n : Nat} (h : k + n ≤ 8 * s.bufLen) (acc : Word) :
    s.readField k n acc = .ok (BitVec.ofNat 64 (acc.toNat * 2 ^ n + s.fieldAt k n)) := by
  induction n generalizing k acc with
  | zero => simp [State.readField, State.fieldAt]
  | succ n ih =>
    simp only [State.readField]
    rw [State.bitRead_inside (by omega), ok_bind, ih (by omega), shiftIn_bit, State.fieldAt_succ]
    congr 1
    refine BitVec.eq_of_toNat_eq ?_
    simp only [BitVec.toNat_ofNat]
    rw [pow_succ, Nat.add_mod, Nat.mul_mod, Nat.mod_mod, ← Nat.mul_mod, ← Nat.add_mod]
    congr 1
    ring

/-! ### The loop of SET_BITS -/

/-- The memory after `n` bits of `data` are written from bit offset `k` up. -/
def Memory.writeField (m : Memory) (k n : Nat) (data : Word) : Memory :=
  match n with
  | 0 => m
  | j + 1 => Memory.writeField (Memory.writeBit m k (data.getLsbD j)) (k + 1) j data

theorem State.writeField_inside {s : State} {k n : Nat} (h : k + n ≤ 8 * s.bufLen) (data : Word) :
    s.writeField k n data = .ok (s.setMem (Memory.writeField s.mem k n data)) := by
  induction n generalizing s k with
  | zero => rfl
  | succ n ih =>
    simp only [State.writeField]
    rw [State.bitWrite_inside (by omega), ok_bind, ih (by simp; omega)]
    rfl

/-- What every bit of the store is after SET_BITS's loop: `data[n-1-i]` at offset `k + i`, and no other bit changes
(R117). -/
theorem State.bitAt_writeField (s : State) (k n : Nat) (data : Word) (k' : Nat) :
    (s.setMem (Memory.writeField s.mem k n data)).bitAt k' =
      if k ≤ k' ∧ k' < k + n then data.getLsbD (n - 1 - (k' - k)) else s.bitAt k' := by
  induction n generalizing s k with
  | zero => rw [if_neg (by omega)]; rfl
  | succ n ih =>
    have := ih (s.setMem (Memory.writeBit s.mem k (data.getLsbD n))) (k + 1)
    simp only [State.setMem_mem, State.setMem_setMem] at this
    rw [Memory.writeField, this, State.bitAt_writeBit]
    by_cases h0 : k' = k
    · subst h0
      rw [if_neg (by omega), if_pos rfl, if_pos (by omega)]
      simp
    · by_cases h1 : k + 1 ≤ k' ∧ k' < k + 1 + n
      · rw [if_pos h1, if_pos (by omega), show n - 1 - (k' - (k + 1)) = n + 1 - 1 - (k' - k) by omega]
      · rw [if_neg h1, if_neg h0, if_neg (by omega)]

theorem Memory.writeField_reaches {N : Nat} (m : Memory) {k n : Nat} (h : k + n ≤ 8 * N) (data : Word) :
    Memory.Reaches N m (Memory.writeField m k n data) := by
  induction n generalizing m k with
  | zero => exact .refl
  | succ n ih => exact (Memory.writeBit_reaches m (by omega) _).trans (ih _ (by omega))

/-! ### All each command can do -/

theorem execReadBits_ready {s : State} {k n : Nat} {acc : Word} (h : s.FieldReady k n) (hv : s.acc = some acc) :
    execReadBits s = .next (s.setAcc (BitVec.ofNat 64 (acc.toNat * 2 ^ n + s.fieldAt k n))) := by
  have hle : k + n ≤ 8 * s.bufLen := by obtain ⟨_, _, _, _, _, _, _, hle⟩ := h; exact hle
  simp [execReadBits, State.fieldOperands_ready h hv, State.readField_inside hle]

theorem execReadBits_cases (s : State) :
    (∃ k n acc, s.FieldReady k n ∧ s.acc = some acc ∧
      execReadBits s = .next (s.setAcc (BitVec.ofNat 64 (acc.toNat * 2 ^ n + s.fieldAt k n)))) ∨
    ∃ c, Instr.readBits.mayRaise c = true ∧ execReadBits s = .next (s.takeFault c) := by
  rcases s.fieldOperands_cases s.acc with ⟨k, n, v, hr, hv, -⟩ | ⟨c, hc, he⟩
  · exact .inl ⟨k, n, v, hr, hv, execReadBits_ready hr hv⟩
  · exact .inr ⟨c, by simp [Instr.mayRaise, hc, or_assoc], by simp [execReadBits, he]⟩

theorem execSetBits_ready {s : State} {k n : Nat} {data : Word} (h : s.FieldReady k n) (hv : s.data = some data) :
    execSetBits s = .next (s.setMem (Memory.writeField s.mem k n data)) := by
  have hle : k + n ≤ 8 * s.bufLen := by obtain ⟨_, _, _, _, _, _, _, hle⟩ := h; exact hle
  simp [execSetBits, State.fieldOperands_ready h hv, State.writeField_inside hle]

theorem execSetBits_cases (s : State) :
    (∃ k n data, s.FieldReady k n ∧ s.data = some data ∧
      execSetBits s = .next (s.setMem (Memory.writeField s.mem k n data))) ∨
    ∃ c, Instr.setBits.mayRaise c = true ∧ execSetBits s = .next (s.takeFault c) := by
  rcases s.fieldOperands_cases s.data with ⟨k, n, v, hr, hv, -⟩ | ⟨c, hc, he⟩
  · exact .inl ⟨k, n, v, hr, hv, execSetBits_ready hr hv⟩
  · exact .inr ⟨c, by simp [Instr.mayRaise, hc, or_assoc], by simp [execSetBits, he]⟩

theorem execReadBit_ready {s : State} {k : Nat} (h : s.BitReady k) :
    execReadBit s = .next (s.setAcc ((BitVec.ofBool (s.bitAt k)).setWidth 64)) := by
  have hlt : k < 8 * s.bufLen := by obtain ⟨_, _, _, hlt⟩ := h; exact hlt
  simp [execReadBit, State.bitOperand_ready h, State.bitRead_inside hlt]

theorem execReadBit_cases (s : State) :
    (∃ k, s.BitReady k ∧ execReadBit s = .next (s.setAcc ((BitVec.ofBool (s.bitAt k)).setWidth 64))) ∨
    ∃ c, Instr.readBit.mayRaise c = true ∧ execReadBit s = .next (s.takeFault c) := by
  rcases s.bitOperand_cases with ⟨k, hr, -⟩ | ⟨c, hc, he⟩
  · exact .inl ⟨k, hr, execReadBit_ready hr⟩
  · exact .inr ⟨c, by simp [Instr.mayRaise, hc], by simp [execReadBit, he]⟩

theorem execSetBit_ready {s : State} {k : Nat} (h : s.BitReady k) :
    execSetBit s = .next (s.setMem (Memory.writeBit s.mem k true)) := by
  have hlt : k < 8 * s.bufLen := by obtain ⟨_, _, _, hlt⟩ := h; exact hlt
  simp [execSetBit, State.bitOperand_ready h, State.bitWrite_inside hlt]

theorem execSetBit_cases (s : State) :
    (∃ k, s.BitReady k ∧ execSetBit s = .next (s.setMem (Memory.writeBit s.mem k true))) ∨
    ∃ c, Instr.setBit.mayRaise c = true ∧ execSetBit s = .next (s.takeFault c) := by
  rcases s.bitOperand_cases with ⟨k, hr, -⟩ | ⟨c, hc, he⟩
  · exact .inl ⟨k, hr, execSetBit_ready hr⟩
  · exact .inr ⟨c, by simp [Instr.mayRaise, hc], by simp [execSetBit, he]⟩

theorem execClearBit_ready {s : State} {k : Nat} (h : s.BitReady k) :
    execClearBit s = .next (s.setMem (Memory.writeBit s.mem k false)) := by
  have hlt : k < 8 * s.bufLen := by obtain ⟨_, _, _, hlt⟩ := h; exact hlt
  simp [execClearBit, State.bitOperand_ready h, State.bitWrite_inside hlt]

theorem execClearBit_cases (s : State) :
    (∃ k, s.BitReady k ∧ execClearBit s = .next (s.setMem (Memory.writeBit s.mem k false))) ∨
    ∃ c, Instr.clearBit.mayRaise c = true ∧ execClearBit s = .next (s.takeFault c) := by
  rcases s.bitOperand_cases with ⟨k, hr, -⟩ | ⟨c, hc, he⟩
  · exact .inl ⟨k, hr, execClearBit_ready hr⟩
  · exact .inr ⟨c, by simp [Instr.mayRaise, hc], by simp [execClearBit, he]⟩

theorem execClearAllBits_eq (s : State) :
    execClearAllBits s = .next (s.setMem (Memory.mapBelow (fun _ => 0x00#8) s.bufLen s.mem)) := by
  simp [execClearAllBits, State.mapBytes_inside]

theorem execSetAllBits_eq (s : State) :
    execSetAllBits s = .next (s.setMem (Memory.mapBelow (fun _ => 0xFF#8) s.bufLen s.mem)) := by
  simp [execSetAllBits, State.mapBytes_inside]

theorem execFlipAllBits_eq (s : State) :
    execFlipAllBits s = .next (s.setMem (Memory.mapBelow (fun b => b ^^^ 0xFF#8) s.bufLen s.mem)) := by
  simp [execFlipAllBits, State.mapBytes_inside]

end Sys2Proof.Machine
end

