-- ==== Sys2Proof/Laws/Endian.lean ====
section
/-! SUPPORT. The endian_converter_mux: what each byte of ENC is, DEC as a sum over the store, and that the two undo each
other. -/

namespace Sys2Proof.Machine

theorem lane_lt {w : Width} {e : ByteOrder} {i : Nat} (h : i < w.bytes) : lane w e i < w.bytes := by
  cases e <;> simp [lane] <;> omega

theorem lane_lane {w : Width} {e : ByteOrder} {i : Nat} (h : i < w.bytes) : lane w e (lane w e i) = i := by
  cases e
  · rfl
  · simp [lane]
    omega

theorem Width.bytes_pos (w : Width) : 0 < w.bytes := by cases w <;> decide

@[simp] theorem enc_length (w : Width) (e : ByteOrder) (v : Word) : (enc w e v).length = w.bytes := by simp [enc]

/-- Byte `i` of ENC is the eight bits of the value at its lane (R150, R155). -/
theorem enc_getD {w : Width} {e : ByteOrder} {v : Word} {i : Nat} (h : i < w.bytes) :
    (enc w e v).getD i 0#8 = v.extractLsb' (8 * lane w e i) 8 := by
  rw [List.getD_eq_getElem?_getD, enc, List.getElem?_map, List.getElem?_range h]
  refine BitVec.eq_of_getLsbD_eq fun j hj => ?_
  simp [hj]

theorem truncTo_toNat (w : Width) (v : Word) : (truncTo w v).toNat = v.toNat % 2 ^ w.bits := by
  have h : 2 ^ w.bits - 1 < 2 ^ 64 := by cases w <;> decide
  rw [truncTo, BitVec.toNat_and, BitVec.toNat_ofNat, Nat.mod_eq_of_lt h, Nat.and_two_pow_sub_one_eq_mod]

/-- A byte below W of `trunc_W(v)` is that byte of `v`. -/
theorem truncTo_extract {w : Width} {v : Word} {l : Nat} (h : l < w.bytes) :
    (truncTo w v).extractLsb' (8 * l) 8 = v.extractLsb' (8 * l) 8 := by
  refine BitVec.eq_of_toNat_eq ?_
  simp only [BitVec.extractLsb'_toNat, truncTo_toNat, Nat.shiftRight_eq_div_pow]
  have hs : 2 ^ w.bits = 2 ^ (8 * l) * 2 ^ (8 * (w.bytes - l)) := by
    rw [← pow_add, Width.bits]
    congr 1
    omega
  rw [hs, Nat.mod_mul_right_div_self, Nat.mod_mod_of_dvd]
  exact pow_dvd_pow 2 (by omega)

/-- DEC of bytes read from the store, as the sum of R151. -/
theorem dec_memory (s : State) (w : Width) (e : ByteOrder) (a : Nat) :
    dec w e ((List.range w.bytes).map fun i => s.byteAt (a + i)) =
      ∑ i ∈ Finset.range w.bytes, (s.byteAt (a + i)).toNat * 2 ^ (8 * lane w e i) := by
  unfold dec
  rw [Finset.sum_range, ← List.sum_ofFn]
  congr 1
  refine List.ext_getElem (by simp) fun i hi hi' => ?_
  have : i < w.bytes := by simpa using hi
  simp [List.getD_eq_getElem?_getD, this]

theorem dec_memory_le (s : State) (w : Width) (a : Nat) :
    dec w .le ((List.range w.bytes).map fun i => s.byteAt (a + i)) = s.leValue a w.bytes := dec_memory s w .le a

theorem dec_memory_be (s : State) (w : Width) (a : Nat) :
    dec w .be ((List.range w.bytes).map fun i => s.byteAt (a + i)) = s.beValue a w.bytes := dec_memory s w .be a

/-- DEC as a sum (R151). -/
theorem dec_eq_sum (w : Width) (e : ByteOrder) (bs : List Byte) :
    dec w e bs = ∑ i ∈ Finset.range w.bytes, (bs.getD i 0#8).toNat * 2 ^ (8 * lane w e i) := by
  unfold dec
  rw [Finset.sum_range, ← List.sum_ofFn]
  congr 1
  exact List.ext_getElem (by simp) fun i hi hi' => by simp

/-- A sum over the bytes of an element does not depend on the order in which the lanes are visited. -/
theorem sum_lane (w : Width) (e : ByteOrder) (f : Nat → Nat) :
    ∑ i ∈ Finset.range w.bytes, f (lane w e i) = ∑ i ∈ Finset.range w.bytes, f i := by
  cases e
  · rfl
  · exact Finset.sum_range_reflect f w.bytes

/-- The bytes of a number, weighted by their places, add up to its low bits. -/
theorem sum_bytes (x n : Nat) : ∑ i ∈ Finset.range n, x / 2 ^ (8 * i) % 256 * 2 ^ (8 * i) = x % 2 ^ (8 * n) := by
  induction n with
  | zero => simp [Nat.mod_one]
  | succ n ih =>
    rw [Finset.sum_range_succ, ih, show 8 * (n + 1) = 8 * n + 8 by ring, pow_add, Nat.mod_mul, show (2 : Nat) ^ 8 = 256 from rfl]
    ring

/-- DEC undoes ENC (R153 (a)), for a value of any size: what is left is its low W bits. -/
theorem dec_enc (w : Width) (e : ByteOrder) (v : Word) : dec w e (enc w e v) = v.toNat % 2 ^ w.bits := by
  rw [dec_eq_sum, Width.bits, ← sum_bytes, ← sum_lane w e fun i => v.toNat / 2 ^ (8 * i) % 256 * 2 ^ (8 * i)]
  refine Finset.sum_congr rfl fun i hi => ?_
  rw [enc_getD (Finset.mem_range.mp hi), BitVec.extractLsb'_toNat, Nat.shiftRight_eq_div_pow]

/-- DEC of W/8 bytes is a W-bit number (R151). -/
theorem dec_lt (w : Width) (e : ByteOrder) (bs : List Byte) : dec w e bs < 2 ^ w.bits := by
  have key : ∀ (g : Nat → Byte) (n : Nat), ∑ i ∈ Finset.range n, (g i).toNat * 2 ^ (8 * i) < 2 ^ (8 * n) := by
    intro g n
    induction n with
    | zero => simp
    | succ n ih =>
      rw [Finset.sum_range_succ, show 8 * (n + 1) = 8 * n + 8 by ring, pow_add]
      have := (g n).isLt
      nlinarith [Nat.pos_of_ne_zero (pow_ne_zero (8 * n) (two_ne_zero (α := Nat)))]
  have h : dec w e bs = ∑ i ∈ Finset.range w.bytes, (bs.getD (lane w e i) 0#8).toNat * 2 ^ (8 * i) := by
    rw [dec_eq_sum, ← sum_lane w e]
    refine Finset.sum_congr rfl fun i hi => ?_
    rw [lane_lane (Finset.mem_range.mp hi)]
  rw [h]
  exact key _ _

end Sys2Proof.Machine
end

