-- ==== Sys2Proof/Laws/VectorCodec.lean ====
section
/-! SUPPORT. The integer_codec_engine and the byte_copy_unit: their loops in closed form, and all each command can do. -/

namespace Sys2Proof.Machine

/-! ### The loop of the read commands -/

/-- The element of the store at byte address `a`, zero-extended (R162). -/
def State.elementAt (s : State) (w : Width) (e : ByteOrder) (a : Nat) : Word :=
  BitVec.ofNat 64 (dec w e ((List.range w.bytes).map fun i => s.byteAt (a + i)))

/-- VBUF after `n` elements from byte address `a` are read into the entries from `j` up. -/
def State.vbufLoaded (s : State) (w : Width) (e : ByteOrder) (vb : List (Option Word)) (a j n : Nat) :
    List (Option Word) :=
  match n with
  | 0 => vb
  | m + 1 => s.vbufLoaded w e (vb.set j (some (s.elementAt w e a))) (a + w.bytes) (j + 1) m

theorem State.vbufLoaded_length (s : State) (w : Width) (e : ByteOrder) (vb : List (Option Word)) (a j n : Nat) :
    (s.vbufLoaded w e vb a j n).length = vb.length := by
  induction n generalizing vb a j with
  | zero => rfl
  | succ m ih => simp [State.vbufLoaded, ih]

/-- What every entry holds after a read: the elements in `[j, j+n)`, and every other entry as before (R162). -/
theorem State.vbufLoaded_getElem? (s : State) (w : Width) (e : ByteOrder) (vb : List (Option Word)) (a j n i : Nat)
    (h : j + n ≤ vb.length) :
    (s.vbufLoaded w e vb a j n)[i]? =
      if j ≤ i ∧ i < j + n then some (some (s.elementAt w e (a + (i - j) * w.bytes))) else vb[i]? := by
  induction n generalizing vb a j with
  | zero => rw [if_neg (by omega)]; rfl
  | succ m ih =>
    rw [State.vbufLoaded, ih _ _ _ (by simpa using by omega)]
    by_cases h0 : i = j
    · subst h0
      rw [if_neg (by omega), if_pos (by omega), List.getElem?_set_self (by omega)]
      simp
    · by_cases h1 : j + 1 ≤ i ∧ i < j + 1 + m
      · rw [if_pos h1, if_pos (by omega)]
        have : i - j = (i - (j + 1)) + 1 := by omega
        rw [this, Nat.add_mul, Nat.one_mul]
        congr 3
        omega
      · rw [if_neg h1, if_neg (by omega), List.getElem?_set_ne (Ne.symm h0)]

theorem State.elementAt_setEntry (s : State) (j : Nat) (v : Word) : (s.setEntry j v).elementAt = s.elementAt := rfl

theorem State.vbufLoaded_setEntry (s : State) (j : Nat) (v : Word) : (s.setEntry j v).vbufLoaded = s.vbufLoaded := by
  funext w e vb a j' n
  induction n generalizing vb a j' with
  | zero => rfl
  | succ m ih => simp only [State.vbufLoaded, ih, State.elementAt_setEntry]

theorem State.loadElements_inside {s : State} {w : Width} {e : ByteOrder} {a j n : Nat} (h : a + n * w.bytes ≤ s.bufLen)
    (hj : j + n ≤ s.vbuf.length) :
    s.loadElements w e a j n = .ok { s with vbuf := s.vbufLoaded w e s.vbuf a j n } := by
  induction n generalizing s a j with
  | zero => rfl
  | succ m ih =>
    rw [Nat.add_mul, Nat.one_mul] at h
    simp only [State.loadElements]
    rw [State.memRead_inside (by omega), ok_bind, State.writeEntry_inside (by rw [State.vbufLen]; omega), ok_bind,
      ih (by simp; omega) (by simp; omega), State.vbufLoaded_setEntry]
    rfl

/-! ### The loop of the write commands -/

/-- The memory after the elements `vs` are written from byte address `a` up. -/
def Memory.storeVector (m : Memory) (w : Width) (e : ByteOrder) (a : Nat) (vs : List Word) : Memory :=
  match vs with
  | [] => m
  | v :: rest => Memory.storeVector (Memory.writeBytes m a (enc w e (truncTo w v))) w e (a + w.bytes) rest

theorem State.storeElements_inside {s : State} {w : Width} {e : ByteOrder} {a : Nat} {vs : List Word}
    (h : a + vs.length * w.bytes ≤ s.bufLen) :
    s.storeElements w e a vs = .ok (s.setMem (Memory.storeVector s.mem w e a vs)) := by
  induction vs generalizing s a with
  | nil => rfl
  | cons v rest ih =>
    rw [List.length_cons, Nat.add_mul, Nat.one_mul] at h
    simp only [State.storeElements]
    rw [State.memWrite_inside (by simp; omega), ok_bind, ih (by simp; omega)]
    rfl

theorem Memory.storeVector_reaches {n : Nat} (m : Memory) {w : Width} {e : ByteOrder} {a : Nat} {vs : List Word}
    (h : a + vs.length * w.bytes ≤ n) : Memory.Reaches n m (Memory.storeVector m w e a vs) := by
  induction vs generalizing m a with
  | nil => exact .refl
  | cons v rest ih =>
    rw [List.length_cons, Nat.add_mul, Nat.one_mul] at h
    exact (Memory.writeBytes_reaches m (by simp; omega)).trans (ih _ (by omega))

/-- A write leaves every byte outside its range alone (R164). -/
theorem Memory.read_storeVector_outside (m : Memory) (w : Width) (e : ByteOrder) (a : Nat) (vs : List Word) {a' : Nat}
    (h : a' < a ∨ a + vs.length * w.bytes ≤ a') :
    Memory.read (Memory.storeVector m w e a vs) a' = Memory.read m a' := by
  induction vs generalizing m a with
  | nil => rfl
  | cons v rest ih =>
    rw [List.length_cons, Nat.add_mul, Nat.one_mul] at h
    rw [Memory.storeVector, ih _ _ (by omega), Memory.read_writeBytes, if_neg (by simp; omega)]

/-- Byte `i` of element `j` after a write is its lane of the element (R164, R179). -/
theorem Memory.read_storeVector_inside (m : Memory) (w : Width) (e : ByteOrder) (a : Nat) (vs : List Word) {j i : Nat}
    (hj : j < vs.length) (hi : i < w.bytes) :
    Memory.read (Memory.storeVector m w e a vs) (a + j * w.bytes + i) = (vs[j]).extractLsb' (8 * lane w e i) 8 := by
  induction vs generalizing m a j with
  | nil => simp at hj
  | cons v rest ih =>
    rw [Memory.storeVector]
    cases j with
    | zero =>
      rw [Memory.read_storeVector_outside _ _ _ _ _ (by omega), Memory.read_writeBytes, if_pos (by simp; omega)]
      rw [show a + 0 * w.bytes + i - a = i by omega, enc_getD hi, truncTo_extract (lane_lt hi)]
      rfl
    | succ k =>
      have := ih (Memory.writeBytes m a (enc w e (truncTo w v))) (a + w.bytes) (j := k) (by simpa using hj)
      rw [show a + (k + 1) * w.bytes + i = a + w.bytes + k * w.bytes + i by ring]
      simpa using this

/-! ### The loop of WRITE_BYTES -/

/-- WRITE_BYTES's loop is one MemWrite of the entries' low bytes (R182). -/
theorem State.copyBytes_inside {s : State} {a : Nat} {vs : List Word} (h : a + vs.length ≤ s.bufLen) :
    s.copyBytes a vs = .ok (s.setMem (Memory.writeBytes s.mem a (vs.map fun v => v.setWidth 8))) := by
  induction vs generalizing s a with
  | nil => rfl
  | cons v rest ih =>
    simp only [List.length_cons] at h
    simp only [State.copyBytes]
    rw [State.writeByte_inside (by omega), ok_bind, ih (by simp; omega)]
    rfl

/-! ### All each family can do -/

theorem State.readVector_ready {s : State} {w : Width} {e : ByteOrder} {a n : Nat} (h : s.VectorReady w.bytes a n) :
    s.settle (s.readVector w e) = .next { s with vbuf := s.vbufLoaded w e s.vbuf a 0 n } := by
  obtain ⟨hle, hv⟩ : a + n * w.bytes ≤ s.bufLen ∧ n ≤ s.vbuf.length := by
    obtain ⟨_, _, _, _, _, _, hle, hv⟩ := h
    exact ⟨hle, hv⟩
  simp [State.readVector, State.vectorRange_ready h, State.loadElements_inside hle (show 0 + n ≤ s.vbuf.length by omega)]

theorem State.readVector_cases (s : State) (w : Width) (e : ByteOrder) :
    (∃ a n, s.VectorReady w.bytes a n ∧
      s.settle (s.readVector w e) = .next { s with vbuf := s.vbufLoaded w e s.vbuf a 0 n }) ∨
    ∃ c, (c = .uninitializedOperand ∨ c = .badCount ∨ c = .storeOutOfBounds ∨ c = .vbufOutOfBounds) ∧
      s.settle (s.readVector w e) = .next (s.takeFault c) := by
  rcases s.vectorRange_cases w.bytes with ⟨a, n, hr, -⟩ | ⟨c, hc, he⟩
  · exact .inl ⟨a, n, hr, State.readVector_ready hr⟩
  · exact .inr ⟨c, hc, by simp [State.readVector, he]⟩

theorem State.writeVector_ready {s : State} {w : Width} {e : ByteOrder} {a : Nat} {vs : List Word}
    (h : s.VectorReady w.bytes a vs.length) (hv : s.EntriesHold vs) :
    s.settle (s.writeVector w e) = .next (s.setMem (Memory.storeVector s.mem w e a vs)) := by
  have hle : a + vs.length * w.bytes ≤ s.bufLen := by obtain ⟨_, _, _, _, _, _, hle, _⟩ := h; exact hle
  simp [State.writeVector, State.vectorRange_ready h, State.vectorOperand_ready hv, State.storeElements_inside hle]

theorem State.writeVector_cases (s : State) (w : Width) (e : ByteOrder) :
    (∃ a vs, s.VectorReady w.bytes a vs.length ∧ s.EntriesHold vs ∧
      s.settle (s.writeVector w e) = .next (s.setMem (Memory.storeVector s.mem w e a vs))) ∨
    ∃ c, (c = .uninitializedOperand ∨ c = .badCount ∨ c = .storeOutOfBounds ∨ c = .vbufOutOfBounds) ∧
      s.settle (s.writeVector w e) = .next (s.takeFault c) := by
  rcases s.vectorRange_cases w.bytes with ⟨a, n, hr, -⟩ | ⟨c, hc, he⟩
  · have hn : n ≤ s.vbuf.length := by obtain ⟨_, _, _, _, _, _, _, hn⟩ := hr; exact hn
    rcases s.vectorOperand_cases hn with ⟨vs, rfl, hv, -⟩ | he
    · exact .inl ⟨a, vs, hr, hv, State.writeVector_ready hr hv⟩
    · exact .inr ⟨_, .inl rfl, by simp [State.writeVector, State.vectorRange_ready hr, he]⟩
  · exact .inr ⟨c, hc, by simp [State.writeVector, he]⟩

theorem execWriteBytes_ready {s : State} {a : Nat} {vs : List Word} (h : s.VectorReady 1 a vs.length)
    (hv : s.EntriesHold vs) :
    execWriteBytes s = .next (s.setMem (Memory.writeBytes s.mem a (vs.map fun v => v.setWidth 8))) := by
  have hle : a + vs.length ≤ s.bufLen := by obtain ⟨_, _, _, _, _, _, hle, _⟩ := h; omega
  simp [execWriteBytes, State.vectorRange_ready h, State.vectorOperand_ready hv, State.copyBytes_inside hle]

theorem execWriteBytes_cases (s : State) :
    (∃ a vs, s.VectorReady 1 a vs.length ∧ s.EntriesHold vs ∧
      execWriteBytes s = .next (s.setMem (Memory.writeBytes s.mem a (vs.map fun v => v.setWidth 8)))) ∨
    ∃ c, Instr.writeBytes.mayRaise c = true ∧ execWriteBytes s = .next (s.takeFault c) := by
  rcases s.vectorRange_cases 1 with ⟨a, n, hr, -⟩ | ⟨c, hc, he⟩
  · have hn : n ≤ s.vbuf.length := by obtain ⟨_, _, _, _, _, _, _, hn⟩ := hr; exact hn
    rcases s.vectorOperand_cases hn with ⟨vs, rfl, hv, -⟩ | he
    · exact .inl ⟨a, vs, hr, hv, execWriteBytes_ready hr hv⟩
    · exact .inr ⟨.uninitializedOperand, rfl, by simp [execWriteBytes, State.vectorRange_ready hr, he]⟩
  · exact .inr ⟨c, by simp [Instr.mayRaise, hc, or_assoc], by simp [execWriteBytes, he]⟩

end Sys2Proof.Machine
end

