-- ==== Sys2Proof/Laws/Exec.lean ====
section
/-! SUPPORT. Say once what a command can do: `exec_cases` for the whole command set, and the shape each command has. -/

namespace Sys2Proof.Machine

/-- What a successful command did to the state: it wrote the store inside its bounds, or ACC, or VBUF entries (R68). -/
inductive State.Did (s : State) : Instr → State → Prop
  /-- A command that writes the store. -/
  | store {i : Instr} (m : Memory) (h : Memory.Reaches s.bufLen s.mem m)
      (hi : i ∉ [Instr.readBits, Instr.readBit, Instr.readU16Le, Instr.readU16Be, Instr.readU32Le, Instr.readU32Be,
        Instr.readU64Le, Instr.readU64Be]) : State.Did s i (s.setMem m)
  /-- READ_BITS and READ_BIT. -/
  | acc {i : Instr} (v : Word) (hi : i ∈ [Instr.readBits, Instr.readBit]) : State.Did s i (s.setAcc v)
  /-- The integer reads. -/
  | load {i : Instr} (w : Width) (e : ByteOrder) (a n : Nat)
      (hi : i ∈ [Instr.readU16Le, Instr.readU16Be, Instr.readU32Le, Instr.readU32Be, Instr.readU64Le, Instr.readU64Be]) :
      State.Did s i { s with vbuf := s.vbufLoaded w e s.vbuf a 0 n }

theorem State.readVector_did (s : State) (w : Width) (e : ByteOrder) {i : Instr}
    (hi : i ∈ [Instr.readU16Le, Instr.readU16Be, Instr.readU32Le, Instr.readU32Be, Instr.readU64Le, Instr.readU64Be]) :
    ∃ t, s.settle (s.readVector w e) = .next t ∧
      (State.Did s i t ∨ ∃ c, i.mayRaise c = true ∧ t = s.takeFault c) := by
  rcases s.readVector_cases w e with ⟨a, n, -, h⟩ | ⟨c, hc, h⟩
  · exact ⟨_, h, .inl (.load w e a n hi)⟩
  · refine ⟨_, h, .inr ⟨c, ?_, rfl⟩⟩
    simp only [List.mem_cons, List.not_mem_nil, or_false] at hi
    rcases hi with rfl | rfl | rfl | rfl | rfl | rfl <;> simp [Instr.mayRaise, hc, or_assoc]

theorem State.writeVector_did (s : State) (w : Width) (e : ByteOrder) {i : Instr}
    (hi : i ∈ [Instr.writeU16Le, Instr.writeU16Be, Instr.writeU32Le, Instr.writeU32Be, Instr.writeU64Le,
      Instr.writeU64Be]) :
    ∃ t, s.settle (s.writeVector w e) = .next t ∧
      (State.Did s i t ∨ ∃ c, i.mayRaise c = true ∧ t = s.takeFault c) := by
  simp only [List.mem_cons, List.not_mem_nil, or_false] at hi
  rcases s.writeVector_cases w e with ⟨a, vs, hr, -, h⟩ | ⟨c, hc, h⟩
  · have hle : a + vs.length * w.bytes ≤ s.bufLen := by obtain ⟨_, _, _, _, _, _, hle, _⟩ := hr; exact hle
    refine ⟨_, h, .inl (.store _ (Memory.storeVector_reaches _ hle) ?_)⟩
    rcases hi with rfl | rfl | rfl | rfl | rfl | rfl <;> simp
  · refine ⟨_, h, .inr ⟨c, ?_, rfl⟩⟩
    rcases hi with rfl | rfl | rfl | rfl | rfl | rfl <;> simp [Instr.mayRaise, hc, or_assoc]

/-- Everything a command can do, in any state: it answers a next state, in which it succeeded inside the store, or took one
of the faults R207 lists for it. -/
theorem exec_cases (i : Instr) (s : State) :
    ∃ t, exec i s = .next t ∧ (State.Did s i t ∨ ∃ c, i.mayRaise c = true ∧ t = s.takeFault c) := by
  cases i with
  | readBits =>
    rcases execReadBits_cases s with ⟨k, n, acc, -, -, h⟩ | ⟨c, hc, h⟩
    · exact ⟨_, h, .inl (.acc _ (by simp))⟩
    · exact ⟨_, h, .inr ⟨c, hc, rfl⟩⟩
  | setBits =>
    rcases execSetBits_cases s with ⟨k, n, data, hr, -, h⟩ | ⟨c, hc, h⟩
    · have hle : k + n ≤ 8 * s.bufLen := by obtain ⟨_, _, _, _, _, _, _, hle⟩ := hr; exact hle
      exact ⟨_, h, .inl (.store _ (Memory.writeField_reaches _ hle _) (by simp))⟩
    · exact ⟨_, h, .inr ⟨c, hc, rfl⟩⟩
  | readBit =>
    rcases execReadBit_cases s with ⟨k, -, h⟩ | ⟨c, hc, h⟩
    · exact ⟨_, h, .inl (.acc _ (by simp))⟩
    · exact ⟨_, h, .inr ⟨c, hc, rfl⟩⟩
  | setBit =>
    rcases execSetBit_cases s with ⟨k, hr, h⟩ | ⟨c, hc, h⟩
    · have hlt : k < 8 * s.bufLen := by obtain ⟨_, _, _, hlt⟩ := hr; exact hlt
      exact ⟨_, h, .inl (.store _ (Memory.writeBit_reaches _ hlt _) (by simp))⟩
    · exact ⟨_, h, .inr ⟨c, hc, rfl⟩⟩
  | clearBit =>
    rcases execClearBit_cases s with ⟨k, hr, h⟩ | ⟨c, hc, h⟩
    · have hlt : k < 8 * s.bufLen := by obtain ⟨_, _, _, hlt⟩ := hr; exact hlt
      exact ⟨_, h, .inl (.store _ (Memory.writeBit_reaches _ hlt _) (by simp))⟩
    · exact ⟨_, h, .inr ⟨c, hc, rfl⟩⟩
  | clearAllBits =>
    exact ⟨_, execClearAllBits_eq s, .inl (.store _ (Memory.mapBelow_reaches _ _ le_rfl) (by simp))⟩
  | setAllBits =>
    exact ⟨_, execSetAllBits_eq s, .inl (.store _ (Memory.mapBelow_reaches _ _ le_rfl) (by simp))⟩
  | flipAllBits =>
    exact ⟨_, execFlipAllBits_eq s, .inl (.store _ (Memory.mapBelow_reaches _ _ le_rfl) (by simp))⟩
  | readU16Le => exact s.readVector_did .w16 .le (by simp)
  | readU16Be => exact s.readVector_did .w16 .be (by simp)
  | readU32Le => exact s.readVector_did .w32 .le (by simp)
  | readU32Be => exact s.readVector_did .w32 .be (by simp)
  | readU64Le => exact s.readVector_did .w64 .le (by simp)
  | readU64Be => exact s.readVector_did .w64 .be (by simp)
  | writeU16Le => exact s.writeVector_did .w16 .le (by simp)
  | writeU16Be => exact s.writeVector_did .w16 .be (by simp)
  | writeU32Le => exact s.writeVector_did .w32 .le (by simp)
  | writeU32Be => exact s.writeVector_did .w32 .be (by simp)
  | writeU64Le => exact s.writeVector_did .w64 .le (by simp)
  | writeU64Be => exact s.writeVector_did .w64 .be (by simp)
  | writeBytes =>
    rcases execWriteBytes_cases s with ⟨a, vs, hr, -, h⟩ | ⟨c, hc, h⟩
    · have hle : a + vs.length * 1 ≤ s.bufLen := by obtain ⟨_, _, _, _, _, _, hle, _⟩ := hr; exact hle
      exact ⟨_, h, .inl (.store _ (Memory.writeBytes_reaches _ (by simp; omega)) (by simp))⟩
    · exact ⟨_, h, .inr ⟨c, hc, rfl⟩⟩

/-- `exec_cases` for a next state already in hand. -/
theorem exec_next_cases {i : Instr} {s t : State} (h : exec i s = .next t) :
    State.Did s i t ∨ ∃ c, i.mayRaise c = true ∧ t = s.takeFault c := by
  obtain ⟨u, hu, hc⟩ := exec_cases i s
  rw [h] at hu
  cases hu
  exact hc

end Sys2Proof.Machine
end

