-- ==== Sys2Proof/Laws/PerInstr.lean ====
section
/-! SUPPORT. Per instruction: the command is well formed, and decoding its word gives it back (R97, R99). -/

namespace Sys2Proof.Laws.DecodeEncode

/-- What this family says of a command. -/
def Statement (i : Instr) : Prop := i.wellFormed = true ∧ decode (encode i) = .ok i

theorem readBits : Statement .readBits := ⟨rfl, by decide⟩

theorem setBits : Statement .setBits := ⟨rfl, by decide⟩

theorem readBit : Statement .readBit := ⟨rfl, by decide⟩

theorem setBit : Statement .setBit := ⟨rfl, by decide⟩

theorem clearBit : Statement .clearBit := ⟨rfl, by decide⟩

theorem clearAllBits : Statement .clearAllBits := ⟨rfl, by decide⟩

theorem setAllBits : Statement .setAllBits := ⟨rfl, by decide⟩

theorem flipAllBits : Statement .flipAllBits := ⟨rfl, by decide⟩

theorem readU16Le : Statement .readU16Le := ⟨rfl, by decide⟩

theorem readU16Be : Statement .readU16Be := ⟨rfl, by decide⟩

theorem readU32Le : Statement .readU32Le := ⟨rfl, by decide⟩

theorem readU32Be : Statement .readU32Be := ⟨rfl, by decide⟩

theorem readU64Le : Statement .readU64Le := ⟨rfl, by decide⟩

theorem readU64Be : Statement .readU64Be := ⟨rfl, by decide⟩

theorem writeU16Le : Statement .writeU16Le := ⟨rfl, by decide⟩

theorem writeU16Be : Statement .writeU16Be := ⟨rfl, by decide⟩

theorem writeU32Le : Statement .writeU32Le := ⟨rfl, by decide⟩

theorem writeU32Be : Statement .writeU32Be := ⟨rfl, by decide⟩

theorem writeU64Le : Statement .writeU64Le := ⟨rfl, by decide⟩

theorem writeU64Be : Statement .writeU64Be := ⟨rfl, by decide⟩

theorem writeBytes : Statement .writeBytes := ⟨rfl, by decide⟩

end Sys2Proof.Laws.DecodeEncode
end

