-- ==== Sys2Proof/Laws/Port.lean ====
section
/-! SUPPORT. Say once what a step can do: one transaction of the host, case by case. -/

namespace Sys2Proof.Machine

/-- An idle CORE changes nothing (R219). -/
theorem step_idle {s : State} (h : s.pending = []) : step s = .next s := by
  simp [step, State.advance, h]

/-- A step takes the oldest pending transaction. -/
theorem step_pending {s : State} {m : HostMove} {rest : List HostMove} (h : s.pending = m :: rest) :
    step s = (s.setPending rest).transact m := by
  simp [step, State.advance, h]

/-- A write to CMD in the faulted state (R209). -/
theorem State.issue_faulted {s : State} (h : s.faulted = true) (v : Word) : s.issue v = .next s := by
  simp [State.issue, h]

/-- A write of a legal word to CMD (R23). -/
theorem State.issue_legal {s : State} {v : Word} {i : Instr} (h : s.faulted = false)
    (hd : decode (v.setWidth 32) = .ok i) : s.issue v = exec i (s.setCmd (v.setWidth 32)) := by
  simp [State.issue, h, State.runWord, hd]

/-- A write of an illegal word to CMD (R202). -/
theorem State.issue_illegal {s : State} {v : Word} {e : Illegal} (h : s.faulted = false)
    (hd : decode (v.setWidth 32) = .error e) :
    s.issue v = .next ((s.setCmd (v.setWidth 32)).takeFault .illegalCommand) := by
  simp [State.issue, h, State.runWord, hd]

/-- What a transaction that answers a next state did. -/
inductive State.Transacted (s : State) : HostMove → State → Prop
  /-- It changed nothing: a dropped command, or a write that is ignored. -/
  | ignored (n : Fin 16) (v : Word) (hn : regOfNumber n = .cmd ∧ s.faulted = true ∨ regOfNumber n = .status ∨
      regOfNumber n = .faultCmd ∨ regOfNumber n = .reserved) : State.Transacted s (.regWrite n v) s
  /-- It issued a legal word. -/
  | command (n : Fin 16) (v : Word) (hn : regOfNumber n = .cmd) (hf : s.faulted = false) (i : Instr)
      (hd : decode (v.setWidth 32) = .ok i) {t : State} (ht : exec i (s.setCmd (v.setWidth 32)) = .next t) :
      State.Transacted s (.regWrite n v) t
  /-- It issued an illegal word. -/
  | illegal (n : Fin 16) (v : Word) (hn : regOfNumber n = .cmd) (hf : s.faulted = false) (e : Illegal)
      (hd : decode (v.setWidth 32) = .error e) :
      State.Transacted s (.regWrite n v) ((s.setCmd (v.setWidth 32)).takeFault .illegalCommand)
  | offset (n : Fin 16) (v : Word) (hn : regOfNumber n = .offset) : State.Transacted s (.regWrite n v) (s.setOffset v)
  | count (n : Fin 16) (v : Word) (hn : regOfNumber n = .count) : State.Transacted s (.regWrite n v) (s.setCount v)
  | data (n : Fin 16) (v : Word) (hn : regOfNumber n = .data) : State.Transacted s (.regWrite n v) (s.setData v)
  | acc (n : Fin 16) (v : Word) (hn : regOfNumber n = .acc) : State.Transacted s (.regWrite n v) (s.setAcc v)
  | readRegister (n : Fin 16) : State.Transacted s (.regRead n) (s.addReply (.word (s.readRegister n)))
  | readEntry (j : Nat) (hj : j < s.vbufLen) : State.Transacted s (.vbufRead j) (s.addReply (.word (s.readEntry j)))
  | readByte (a : Nat) (ha : a < s.bufLen) : State.Transacted s (.storeRead a) (s.addReply (.byte (s.byteAt a)))
  | entry (j : Nat) (v : Word) (hj : j < s.vbufLen) : State.Transacted s (.vbufWrite j v) (s.setEntry j v)
  | byte (a : Nat) (b : Byte) (ha : a < s.bufLen) :
      State.Transacted s (.storeWrite a b) (s.setMem (Memory.write s.mem a b))
  | reset : State.Transacted s .reset s.applyReset

/-- Everything a transaction can do when it answers a next state. -/
theorem State.transact_cases {s t : State} {m : HostMove} (h : s.transact m = .next t) : State.Transacted s m t := by
  cases m with
  | regWrite n v =>
    simp only [State.transact, State.writeRegister] at h
    split at h <;> rename_i hn
    · cases hf : s.faulted with
      | true =>
        rw [State.issue_faulted hf] at h
        cases h
        exact .ignored n v (.inl ⟨hn, hf⟩)
      | false =>
        cases hd : decode (v.setWidth 32) with
        | ok i =>
          rw [State.issue_legal hf hd] at h
          exact .command n v hn hf i hd h
        | error e =>
          rw [State.issue_illegal hf hd] at h
          cases h
          exact .illegal n v hn hf e hd
    all_goals cases h
    · exact .offset n v hn
    · exact .count n v hn
    · exact .data n v hn
    · exact .acc n v hn
    · exact .ignored n v (.inr (.inl hn))
    · exact .ignored n v (.inr (.inr (.inl hn)))
    · exact .ignored n v (.inr (.inr (.inr hn)))
  | regRead n =>
    cases h
    exact .readRegister n
  | vbufWrite j v =>
    simp only [State.transact] at h
    split at h
    · next hj => cases h; exact .entry j v hj
    · cases h
  | vbufRead j =>
    simp only [State.transact] at h
    split at h
    · next hj => cases h; exact .readEntry j hj
    · cases h
  | storeWrite a b =>
    simp only [State.transact] at h
    split at h
    · next ha => cases h; exact .byte a b ha
    · cases h
  | storeRead a =>
    simp only [State.transact] at h
    split at h
    · next ha => cases h; exact .readByte a ha
    · cases h
  | reset =>
    cases h
    exact .reset

/-- Everything a step can do when it answers a next state: nothing while idle, or the oldest transaction. -/
theorem step_cases {s t : State} (h : step s = .next t) :
    (s.pending = [] ∧ t = s) ∨
      ∃ m rest, s.pending = m :: rest ∧ State.Transacted (s.setPending rest) m t := by
  cases hp : s.pending with
  | nil =>
    rw [step_idle hp] at h
    cases h
    exact .inl ⟨rfl, rfl⟩
  | cons m rest =>
    rw [step_pending hp] at h
    exact .inr ⟨m, rest, rfl, State.transact_cases h⟩

end Sys2Proof.Machine
end

