-- ==== Sys2Proof/Tests/Slice0.lean ====
section
/-! SUPPORT. Tests: ill-formed moves refused, command words written out bit by bit, the vectors of 95_test_vectors.md one
step at a time, lines of host programs, and a witness for the hypotheses of every obligation. -/

namespace Sys2Proof.Tests

open Sys2Proof.Machine

/-! ### Helpers -/

/-- The canonical memory of the bytes from address `a` up. -/
def memOf (a : Nat) (bs : List Byte) : Memory :=
  match bs with
  | [] => []
  | b :: rest => if b = Memory.unlisted then memOf (a + 1) rest else (a, b) :: memOf (a + 1) rest

/-- The state after RESET with the store `bs` and the entries `vb`, and then the four operand registers as given. -/
def bench (bs : List Byte) (vb : List (Option Word)) (off cnt data acc : Option Word) : State :=
  { State.powerOn { bufLen := bs.length, vbufLen := vb.length } (memOf 0 bs) with
    offset := off, count := cnt, data := data, acc := acc, vbuf := vb }

/-- `bench` with the host's next transactions. -/
def queued (s : State) (ms : List HostMove) : State := s.setPending ms

/-- The next state an outcome gives. -/
def nextOf (o : Host.Outcome State Fault Refusal) : Option State :=
  match o with
  | .next t => some t
  | .fault _ => none
  | .refused _ => none

/-- The reason an outcome refuses with. -/
def refusalOf (o : Host.Outcome State Fault Refusal) : Option Refusal :=
  match o with
  | .next _ => none
  | .fault _ => none
  | .refused r => some r

theorem next_of {o : Host.Outcome State Fault Refusal} {t : State} (h : nextOf o = some t) : o = .next t := by
  cases o <;> simp_all [nextOf]

theorem refused_of {o : Host.Outcome State Fault Refusal} {r : Refusal} (h : refusalOf o = some r) : o = .refused r := by
  cases o <;> simp_all [refusalOf]

/-- The state after one step that runs the command word `w`. -/
def issued (w : Nat) (s : State) : Option State := nextOf (step (s.withFetchWord 32 w))

/-- The bytes of the store from address 0 up. -/
def storeBytes (s : State) : List Byte := (List.range s.bufLen).map s.byteAt

/-- STATUS and the store after the command word `w`. -/
def storeAfter (w : Nat) (s : State) : Option (CmdWord × List Byte) := (issued w s).map fun t => (t.status, storeBytes t)

/-- STATUS and ACC after the command word `w`. -/
def accAfter (w : Nat) (s : State) : Option (CmdWord × Option Word) := (issued w s).map fun t => (t.status, t.acc)

/-- STATUS and VBUF after the command word `w`. -/
def vbufAfter (w : Nat) (s : State) : Option (CmdWord × List (Option Word)) := (issued w s).map fun t => (t.status, t.vbuf)

/-! ### WellFormed: each check refuses an ill-formed move, and admits the last one inside (R43, R44, R240) -/

theorem test_illformed_vbufWrite :
    HostMove.wellFormed { bufLen := 4, vbufLen := 2 } (.vbufWrite 2 0) = false ∧
    HostMove.wellFormed { bufLen := 4, vbufLen := 2 } (.vbufWrite 1 0) = true := by decide

theorem test_illformed_vbufRead :
    HostMove.wellFormed { bufLen := 4, vbufLen := 2 } (.vbufRead 2) = false ∧
    HostMove.wellFormed { bufLen := 4, vbufLen := 2 } (.vbufRead 1) = true := by decide

theorem test_illformed_storeWrite :
    HostMove.wellFormed { bufLen := 4, vbufLen := 2 } (.storeWrite 4 0) = false ∧
    HostMove.wellFormed { bufLen := 4, vbufLen := 2 } (.storeWrite 3 0) = true := by decide

theorem test_illformed_storeRead :
    HostMove.wellFormed { bufLen := 4, vbufLen := 2 } (.storeRead 4) = false ∧
    HostMove.wellFormed { bufLen := 4, vbufLen := 2 } (.storeRead 3) = true := by decide

/-! ### Decode: words written out as RSV, GRP, SUB from R93, R94 and R95 -/

theorem test_decode_bit_group :
    decode 0b000000000000000000000000_0001_0000#32 = .ok .readBits ∧
    decode 0b000000000000000000000000_0001_0001#32 = .ok .setBits ∧
    decode 0b000000000000000000000000_0001_0010#32 = .ok .readBit ∧
    decode 0b000000000000000000000000_0001_0011#32 = .ok .setBit ∧
    decode 0b000000000000000000000000_0001_0100#32 = .ok .clearBit ∧
    decode 0b000000000000000000000000_0001_1000#32 = .ok .clearAllBits ∧
    decode 0b000000000000000000000000_0001_1001#32 = .ok .setAllBits ∧
    decode 0b000000000000000000000000_0001_1010#32 = .ok .flipAllBits := by decide

theorem test_decode_integer_reads :
    decode 0b000000000000000000000000_0010_0_00_0#32 = .ok .readU16Le ∧
    decode 0b000000000000000000000000_0010_0_00_1#32 = .ok .readU16Be ∧
    decode 0b000000000000000000000000_0010_0_01_0#32 = .ok .readU32Le ∧
    decode 0b000000000000000000000000_0010_0_01_1#32 = .ok .readU32Be ∧
    decode 0b000000000000000000000000_0010_0_10_0#32 = .ok .readU64Le ∧
    decode 0b000000000000000000000000_0010_0_10_1#32 = .ok .readU64Be := by decide

theorem test_decode_integer_writes :
    decode 0b000000000000000000000000_0010_1_00_0#32 = .ok .writeU16Le ∧
    decode 0b000000000000000000000000_0010_1_00_1#32 = .ok .writeU16Be ∧
    decode 0b000000000000000000000000_0010_1_01_0#32 = .ok .writeU32Le ∧
    decode 0b000000000000000000000000_0010_1_01_1#32 = .ok .writeU32Be ∧
    decode 0b000000000000000000000000_0010_1_10_0#32 = .ok .writeU64Le ∧
    decode 0b000000000000000000000000_0010_1_10_1#32 = .ok .writeU64Be := by decide

theorem test_decode_copy_group : decode 0b000000000000000000000000_0011_0000#32 = .ok .writeBytes := by decide

/-- R98: rejected by name. -/
theorem test_decode_illegal :
    decode 0x00000000#32 = .error .unassignedGroup ∧ decode 0x00000015#32 = .error .unassignedBitOperation ∧
    decode 0x0000001B#32 = .error .unassignedBitOperation ∧ decode 0x00000026#32 = .error .reservedWidth ∧
    decode 0x0000002F#32 = .error .reservedWidth ∧ decode 0x00000031#32 = .error .unassignedCopyOperation ∧
    decode 0x000000FF#32 = .error .unassignedGroup ∧ decode 0x00000110#32 = .error .reservedBits := by decide

theorem test_decodeTableWord :
    decodeTableWord 32 0x10 = some .readBits ∧ decodeTableWord 8 0x110 = some .readBits ∧
    decodeTableWord 32 0x110 = none := by decide

/-- The first word placed after reset runs: READ_BIT finds OFFSET unwritten (R121, R203). -/
theorem test_withFetchWord_runs :
    (issued 0x12 State.reset).map (fun t => (t.cmd, t.status, t.faultCmd)) = some (0x12#32, 0x5#32, 0x12#32) := by decide

/-! ### bit_codec_engine: 95_test_vectors.md 2.1 to 2.4 -/

/-- RB2. -/
theorem test_readBits_crosses_byte :
    accAfter 0x10 (bench [0xA5, 0x3C, 0x00, 0xFF] [] (some 4) (some 8) none (some 0)) = some (0, some 0x53) := by decide

/-- RB16. -/
theorem test_readBits_drops_bit63 :
    accAfter 0x10 (bench [0xA5, 0x3C, 0x00, 0xFF] [] (some 7) (some 2) none (some 0x8000000000000001)) =
      some (0, some 0x6) := by decide

/-- SB2. -/
theorem test_setBits_crosses_byte :
    storeAfter 0x11 (bench [0, 0, 0, 0] [] (some 6) (some 4) (some 0xF) none) = some (0, [0x03, 0xC0, 0x00, 0x00]) := by
  decide

/-- SB9. -/
theorem test_setBits_out_of_bounds :
    storeAfter 0x11 (bench [0, 0, 0, 0] [] (some 30) (some 3) (some 0b111) none) = some (0x9, [0, 0, 0, 0]) := by decide

/-- RBT2. -/
theorem test_readBit_replaces_acc :
    accAfter 0x12 (bench [0x80, 0, 0, 0] [] (some 1) none none (some 0xFFFF)) = some (0, some 0) := by decide

/-- RBT3, with ACC unwritten. -/
theorem test_readBit_last_bit :
    accAfter 0x12 (bench [0x01, 0, 0, 0x01] [] (some 31) none none none) = some (0, some 1) := by decide

/-- SBT1. -/
theorem test_setBit : storeAfter 0x13 (bench [0, 0] [] (some 9) none none none) = some (0, [0x00, 0x40]) := by decide

/-- SBT3. -/
theorem test_setBit_past_the_end :
    storeAfter 0x13 (bench [0, 0] [] (some 16) none none none) = some (0x9, [0, 0]) := by decide

/-- CBT1. -/
theorem test_clearBit : storeAfter 0x14 (bench [0x00, 0xFF] [] (some 15) none none none) = some (0, [0x00, 0xFE]) := by
  decide

/-- CBT3: OFFSET = -8. -/
theorem test_clearBit_negative_offset :
    storeAfter 0x14 (bench [0xFF, 0xFF] [] (some (BitVec.ofInt 64 (-8))) none none none) = some (0x9, [0xFF, 0xFF]) := by
  decide

/-- CA1. -/
theorem test_clearAllBits : storeAfter 0x18 (bench [0x12, 0x34] [] none none none none) = some (0, [0x00, 0x00]) := by
  decide

/-- SA1. -/
theorem test_setAllBits : storeAfter 0x19 (bench [0x12, 0x34] [] none none none none) = some (0, [0xFF, 0xFF]) := by decide

/-- SA2: an empty store. -/
theorem test_setAllBits_empty : storeAfter 0x19 (bench [] [] none none none none) = some (0, []) := by decide

/-- FA1. -/
theorem test_flipAllBits : storeAfter 0x1A (bench [0x12, 0x34] [] none none none none) = some (0, [0xED, 0xCB]) := by decide

/-! ### integer_codec_engine: 95_test_vectors.md 2.5 and 2.6 -/

/-- RD1. -/
theorem test_readU16Le :
    vbufAfter 0x20 (bench [0x02, 0x01] [none, none] (some 0) (some 1) none none) = some (0, [some 0x0102, none]) := by decide

/-- RD16: the store check comes before the VBUF check. -/
theorem test_readU16Le_check_order :
    vbufAfter 0x20 (bench [0, 0, 0, 0] [none, none] (some 3) (some 3) none none) = some (0x9, [none, none]) := by decide

/-- RD7. -/
theorem test_readU16Be_vector :
    vbufAfter 0x21 (bench [0xAA, 0xBB, 0xCC, 0xDD, 0xEE, 0xFF] [none, none, none] (some 0) (some 3) none none) =
      some (0, [some 0xAABB, some 0xCCDD, some 0xEEFF]) := by decide

/-- RD10. -/
theorem test_readU16Be_vbuf_bounds :
    vbufAfter 0x21 (bench [0xAA, 0xBB, 0xCC, 0xDD] [none] (some 0) (some 2) none none) = some (0xB, [none]) := by decide

/-- RD4. -/
theorem test_readU32Le :
    vbufAfter 0x22 (bench [0x00, 0xDE, 0xAD, 0xBE, 0xEF] [none, none] (some 1) (some 1) none none) =
      some (0, [some 0xEFBEADDE, none]) := by decide

/-- RD3. -/
theorem test_readU32Be :
    vbufAfter 0x23 (bench [0x00, 0xDE, 0xAD, 0xBE, 0xEF] [none, none] (some 1) (some 1) none none) =
      some (0, [some 0xDEADBEEF, none]) := by decide

/-- RD5. -/
theorem test_readU64Le :
    vbufAfter 0x24 (bench [1, 2, 3, 4, 5, 6, 7, 8] [none, none] (some 0) (some 1) none none) =
      some (0, [some 0x0807060504030201, none]) := by decide

/-- RD11. -/
theorem test_readU64Le_out_of_bounds :
    vbufAfter 0x24 (bench [0xAA, 0xBB, 0xCC, 0xDD] [none, none, none, none] (some 2) (some 1) none none) =
      some (0x9, [none, none, none, none]) := by decide

/-- RD6. -/
theorem test_readU64Be :
    vbufAfter 0x25 (bench [1, 2, 3, 4, 5, 6, 7, 8] [none, none] (some 0) (some 1) none none) =
      some (0, [some 0x0102030405060708, none]) := by decide

/-- W9: bits above W are ignored. -/
theorem test_writeU16Le_truncates :
    storeAfter 0x28 (bench [0, 0, 0, 0] [some 0xFFFF000000001234, none] (some 0) (some 1) none none) =
      some (0, [0x34, 0x12, 0x00, 0x00]) := by decide

/-- W17. -/
theorem test_writeU16Le_unwritten_entry :
    storeAfter 0x28 (bench [0, 0, 0, 0, 0, 0, 0, 0] [some 1, none] (some 0) (some 2) none none) =
      some (0x5, [0, 0, 0, 0, 0, 0, 0, 0]) := by decide

/-- W7. -/
theorem test_writeU16Be_vector :
    storeAfter 0x29 (bench [0, 0, 0, 0, 0, 0] [some 0xAABB, some 0xCCDD] (some 1) (some 2) none none) =
      some (0, [0x00, 0xAA, 0xBB, 0xCC, 0xDD, 0x00]) := by decide

/-- W3. -/
theorem test_writeU32Le :
    storeAfter 0x2A (bench [0, 0, 0, 0] [some 0x11223344, none] (some 0) (some 1) none none) =
      some (0, [0x44, 0x33, 0x22, 0x11]) := by decide

/-- W10. -/
theorem test_writeU32Le_out_of_bounds :
    storeAfter 0x2A (bench [0, 0, 0, 0] [some 0x11223344, none] (some 1) (some 1) none none) = some (0x9, [0, 0, 0, 0]) := by
  decide

/-- W4. -/
theorem test_writeU32Be :
    storeAfter 0x2B (bench [0, 0, 0, 0] [some 0x11223344, none] (some 0) (some 1) none none) =
      some (0, [0x11, 0x22, 0x33, 0x44]) := by decide

/-- W5. -/
theorem test_writeU64Le :
    storeAfter 0x2C (bench [0, 0, 0, 0, 0, 0, 0, 0, 0] [some 0x0102030405060708, none] (some 1) (some 1) none none) =
      some (0, [0x00, 0x08, 0x07, 0x06, 0x05, 0x04, 0x03, 0x02, 0x01]) := by decide

/-- W15: COUNT = 2^62, and the byte length 2^65 does not wrap. -/
theorem test_writeU64Le_huge_count :
    storeAfter 0x2C (bench [0, 0, 0, 0, 0, 0, 0, 0, 0, 0, 0, 0, 0, 0, 0, 0] [some 1, none] (some 0)
      (some 0x4000000000000000) none none) = some (0x9, [0, 0, 0, 0, 0, 0, 0, 0, 0, 0, 0, 0, 0, 0, 0, 0]) := by decide

/-- W6. -/
theorem test_writeU64Be :
    storeAfter 0x2D (bench [0, 0, 0, 0, 0, 0, 0, 0] [some 0x0102030405060708, none] (some 0) (some 1) none none) =
      some (0, [0x01, 0x02, 0x03, 0x04, 0x05, 0x06, 0x07, 0x08]) := by decide

/-- W13: n = 0 at the end of the store. -/
theorem test_writeU64Be_empty :
    storeAfter 0x2D (bench [0, 0, 0, 0] [none, none] (some 4) (some 0) none none) = some (0, [0, 0, 0, 0]) := by decide

/-! ### byte_copy_unit: 95_test_vectors.md 2.7 -/

/-- B1. -/
theorem test_writeBytes :
    storeAfter 0x30 (bench [0, 0, 0, 0, 0, 0] [some 0x11, some 0x22, some 0x133] (some 2) (some 3) none none) =
      some (0, [0x00, 0x00, 0x11, 0x22, 0x33, 0x00]) := by decide

/-- B6: an empty range past the end. -/
theorem test_writeBytes_past_the_end :
    storeAfter 0x30 (bench [0, 0] [none] (some 3) (some 0) none none) = some (0x9, [0, 0]) := by decide

/-! ### The fault latch, the host port and lines of host programs: 95_test_vectors.md 2.9, 2.10 and 3 -/

/-- IL6. -/
theorem test_illegal_word :
    (issued 0x110 State.reset).map (fun t => (t.status, t.faultCmd, t.cmd)) = some (0x3#32, 0x110#32, 0x110#32) := by decide

/-- DR1: a command is dropped while a fault is recorded. -/
theorem test_dropped_command :
    (issued 0x19 (((bench [0x12, 0x34] [] none none none none).setCmd 0xFF).takeFault .illegalCommand)).map
      (fun t => (t.status, t.faultCmd, t.cmd, storeBytes t)) = some (0x3#32, 0xFF#32, 0xFF#32, [0x12, 0x34]) := by decide

/-- H4: refused, not a host move. -/
theorem test_vbuf_index_refused :
    step (queued (bench [] [none] none none none none) [.vbufWrite 1 1]) = .refused (.vbufIndexOutOfRange 1) :=
  refused_of (by decide)

/-- P1, line 1. -/
theorem test_line_set_bits :
    assembleLine 1 "set_bits 0, 0b101, 3".toList =
      some [.regWrite 3 0, .regWrite 5 0x5, .regWrite 4 3, .regWrite 0 0x00000011] := by decide

/-- P2, line 1. -/
theorem test_line_write_u32_le :
    assembleLine 2 "write_u32_le 0, [0x11223344] ; a comment".toList =
      some [.vbufWrite 0 0x11223344, .regWrite 3 0, .regWrite 4 1, .regWrite 0 0x0000002A] := by decide

/-- R100: a negative decimal, and the two forms of `issue`. -/
theorem test_line_transactions :
    assembleLine 1 "wreg OFFSET, -1".toList = some [.regWrite 3 0xFFFFFFFFFFFFFFFF] ∧
    assembleLine 1 "issue 0x110".toList = some [.regWrite 0 0x110] ∧
    assembleLine 1 "issue WRITE_BYTES".toList = some [.regWrite 0 0x30] ∧
    assembleLine 1 "reset".toList = some [.reset] ∧ assembleLine 1 "nonsense".toList = none := by decide

/-- Log 9, the model's own choices: a negative index spells no transaction, and a comma that ends a list is dropped. -/
theorem test_line_choices :
    assembleLine 1 "rvec -1".toList = none ∧ assembleLine 1 "wmem -1, 0".toList = none ∧
    assembleLine 1 "write_bytes 0, [7,]".toList = assembleLine 1 "write_bytes 0, [7]".toList := by decide

/-! ### Witnesses: for each obligation with hypotheses, concrete data that meets them, clause by clause -/

/-- A store of two bytes with two entries, of which the first is written; OFFSET 0, COUNT 2, DATA and ACC written. -/
def sample : State := bench [0x12, 0x34] [some 0xABCD, none] (some 0) (some 2) (some 0b11) (some 0)

/-- `sample` after a fault of the illegal word 0xFF. -/
def faultedSample : State := (sample.setCmd 0xFF).takeFault .illegalCommand

theorem wit_ResetClearsRegistersAndKeepsStore :
    (queued sample [.reset]).pending = .reset :: [] ∧ (queued faultedSample [.reset]).pending = .reset :: [] := by decide

theorem wit_CleanEntryMeetsInvariant : State.CleanEntry State.reset :=
  ⟨Config.resetParams, [], [], by decide, by decide, by decide, rfl⟩

theorem wit_StepRunsTheDecodedCommand :
    (queued sample [.regWrite 0 0xFFFFFFFF0000001A]).pending = .regWrite 0 0xFFFFFFFF0000001A :: [] ∧
    (queued sample [.regWrite 0 0xFFFFFFFF0000001A]).status.getLsbD 0 = false ∧
    decode ((0xFFFFFFFF0000001A : Word).extractLsb' 0 32) = .ok .flipAllBits := by decide

theorem wit_IllegalWordsRaiseIllegalCommand :
    (∃ e, decode 0x0F#32 = .error e) ∧ (∃ e, decode 0x17#32 = .error e) ∧ (∃ e, decode 0x1F#32 = .error e) ∧
    (∃ e, decode 0x27#32 = .error e) ∧ (∃ e, decode 0x2E#32 = .error e) ∧ (∃ e, decode 0x31#32 = .error e) ∧
    (∃ e, decode 0x100#32 = .error e) ∧ (queued sample [.regWrite 0 0x31]).pending = .regWrite 0 0x31 :: [] ∧
    (0x31 : Word).extractLsb' 0 32 = 0x31#32 ∧ (queued sample [.regWrite 0 0x31]).status.getLsbD 0 = false :=
  ⟨⟨_, rfl⟩, ⟨_, rfl⟩, ⟨_, rfl⟩, ⟨_, rfl⟩, ⟨_, rfl⟩, ⟨_, rfl⟩, ⟨_, rfl⟩, by decide, by decide, by decide⟩

theorem wit_FaultedStateDropsCommandWrites :
    (queued faultedSample [.regWrite 0 0x1A]).pending = .regWrite 0 0x1A :: [] ∧
    (queued faultedSample [.regWrite 0 0x1A]).status.getLsbD 0 = true := by decide

theorem wit_FaultedRunNeverEndsSuccessfully : faultedSample.faulted = true := by decide

theorem wit_OnlyResetLeavesTheFaultedState :
    (queued faultedSample [.regWrite 3 5]).faulted = true ∧
    (queued faultedSample [.regWrite 3 5]).pending.head? ≠ some .reset ∧
    step (queued faultedSample [.regWrite 3 5]) = .next (faultedSample.setOffset 5) ∧
    (queued faultedSample [.reset]).pending.head? = some .reset ∧
    step (queued faultedSample [.reset]) = .next (faultedSample.applyReset) :=
  ⟨by decide, by decide, next_of (by decide), by decide, next_of (by decide)⟩

theorem wit_RegisterReadsReturnAndChangeNothing :
    (queued sample [.regRead 0]).pending = .regRead 0 :: [] ∧ (queued sample [.regRead 6]).pending = .regRead 6 :: [] ∧
    (queued sample [.regRead 15]).pending = .regRead 15 :: [] := by decide

theorem wit_ReservedAndReadOnlyRegisters :
    7 ≤ (7 : Fin 16).val ∧ (queued sample [.regRead 7]).pending = .regRead 7 :: [] ∧
    (queued sample [.regWrite 15 1]).pending = .regWrite 15 1 :: [] ∧
    (queued sample [.regWrite 1 9]).pending = .regWrite 1 9 :: [] ∧
    (queued sample [.regWrite 2 9]).pending = .regWrite 2 9 :: [] := by decide

theorem wit_OperandRegisterWrites :
    (queued sample [.regWrite 3 1]).pending = .regWrite 3 1 :: [] ∧
    (queued sample [.regWrite 4 1]).pending = .regWrite 4 1 :: [] ∧
    (queued faultedSample [.regWrite 5 1]).pending = .regWrite 5 1 :: [] ∧
    (queued faultedSample [.regWrite 6 1]).pending = .regWrite 6 1 :: [] := by decide

theorem wit_VbufTransactions :
    (queued sample [.vbufWrite 1 7]).pending = .vbufWrite 1 7 :: [] ∧ 1 < (queued sample [.vbufWrite 1 7]).vbuf.length ∧
    (queued sample [.vbufRead 1]).pending = .vbufRead 1 :: [] ∧ (queued sample [.vbufRead 1]).vbuf[1]? = some none ∧
    (queued sample [.vbufWrite 2 7]).pending = .vbufWrite 2 7 :: [] ∧
    (queued sample [.vbufWrite 2 7]).vbuf.length ≤ 2 ∧
    (queued sample [.vbufRead 2]).pending = .vbufRead 2 :: [] := by decide

theorem wit_StoreTransactions :
    (queued sample [.storeWrite 1 7]).pending = .storeWrite 1 7 :: [] ∧ 1 < (queued sample [.storeWrite 1 7]).bufLen ∧
    (queued sample [.storeRead 1]).pending = .storeRead 1 :: [] ∧
    (queued sample [.storeWrite 2 7]).pending = .storeWrite 2 7 :: [] ∧
    (queued sample [.storeWrite 2 7]).bufLen ≤ 2 ∧ (queued sample [.storeRead 2]).pending = .storeRead 2 :: [] := by decide

theorem wit_TransactionsTakeEffectInOrder :
    step (queued sample [.regWrite 3 1, .reset]) = .next (queued (sample.setOffset 1) [.reset]) ∧ sample.pending = [] :=
  ⟨next_of (by decide), by decide⟩

theorem wit_RefusalsAreExactlyTheOutOfRangeMoves :
    step (queued sample [.storeRead 2]) = .refused (.storeAddressOutOfRange 2) ∧
    step (queued sample [.vbufRead 2]) = .refused (.vbufIndexOutOfRange 2) :=
  ⟨refused_of (by decide), refused_of (by decide)⟩

/-- For its second clause: a run of one good move and then a refused one. -/
theorem wit_RefusalsAreExactlyTheOutOfRangeMoves_later :
    Host.Core.run Sys2Proof.core 2 (queued sample [.regWrite 3 1, .storeRead 2]) =
      .refused (.storeAddressOutOfRange 2) := refused_of (by decide)

/-- Clause by clause: each operand unwritten; COUNT = -1 and 65; OFFSET = -1; an end one past the store's 16 bits. -/
theorem wit_FieldCommandsCheckInOrder :
    (bench [0, 0] [] none (some 65) (some 1) (some 1)).offset = none ∧
    (bench [0, 0] [] (some 0) none (some 1) (some 1)).count = none ∧
    (bench [0, 0] [] (some 0) (some 1) none none).acc = none ∧
    (BitVec.ofInt 64 (-1)).toInt < 0 ∧ (64 : Int) < (65#64).toInt ∧ 0 ≤ (64#64).toInt ∧ (64#64).toInt ≤ 64 ∧
    8 * ((bench [0, 0] [] (some 16) (some 1) (some 1) (some 1)).bufLen : Int) < (16#64).toInt + (1#64).toInt := by decide

theorem wit_SingleBitCommandsCheckInOrder :
    Instr.setBit ∈ [Instr.readBit, Instr.setBit, Instr.clearBit] ∧
    (bench [0, 0] [] none none none none).offset = none ∧ (BitVec.ofInt 64 (-1)).toInt < 0 ∧
    8 * ((bench [0, 0] [] (some 16) none none none).bufLen : Int) ≤ (16#64).toInt := by decide

/-- Clause by clause, for READ_U16_LE and WRITE_U16_LE: an operand unwritten; COUNT = -1; an end one past the store; COUNT
one past VBUF_LEN; the last entry needed is unwritten. -/
theorem wit_VectorCommandsCheckInOrder :
    (bench [0, 0] [none] none (some 1) none none).offset = none ∧
    (bench [0, 0] [none] (some 0) none none none).count = none ∧ (BitVec.ofInt 64 (-1)).toInt < 0 ∧
    (2 : Int) < (1#64).toInt + (1#64).toInt * (2 : Nat) ∧
    (0#64).toInt + (2#64).toInt * (2 : Nat) ≤ ((bench [0, 0, 0, 0] [none] (some 0) (some 2) none none).bufLen : Int) ∧
    ((bench [0, 0, 0, 0] [none] (some 0) (some 2) none none).vbuf.length : Int) < (2#64).toInt ∧
    (2#64).toInt ≤ ((bench [0, 0, 0, 0] [some 1, none] (some 0) (some 2) none none).vbuf.length : Int) ∧
    ((1 : Nat) : Int) < (2#64).toInt ∧
    (bench [0, 0, 0, 0] [some 1, none] (some 0) (some 2) none none).vbuf[1]? = some none := by decide

theorem wit_FaultsArePrecise :
    exec .setBit (bench [] [] (some 0) none none none) =
      .next ((bench [] [] (some 0) none none none).takeFault .storeOutOfBounds) ∧
    exec .clearAllBits (bench [] [] none none none none) = .next (bench [] [] none none none none) ∧
    (queued sample [.regWrite 0 0x15]).pending = .regWrite 0 0x15 :: [] ∧
    (queued sample [.regWrite 0 0x15]).status.getLsbD 0 = false ∧
    decode ((0x15 : Word).extractLsb' 0 32) = .error .unassignedBitOperation :=
  ⟨next_of (by decide), next_of (by decide), by decide, by decide, by decide⟩

/-- For ReadBitsAccumulatesTheField, SetBitsWritesTheField and BitFieldRoundTrip: a field that ends at the last bit of the
store. -/
theorem wit_fieldReady : (bench [0x12, 0x34] [] (some 14) (some 2) (some 3) (some 1)).FieldReady 14 2 ∧
    (bench [0x12, 0x34] [] (some 14) (some 2) (some 3) (some 1)).acc = some 1 ∧
    (bench [0x12, 0x34] [] (some 14) (some 2) (some 3) (some 1)).data = some 3 :=
  ⟨⟨14, 2, rfl, rfl, by decide, by decide, by decide, by decide⟩, rfl, rfl⟩

/-- For the same three: the empty field at the end of the store. -/
theorem wit_fieldReady_empty : (bench [0x12, 0x34] [] (some 16) (some 0) (some 3) (some 1)).FieldReady 16 0 :=
  ⟨16, 0, rfl, rfl, by decide, by decide, by decide, by decide⟩

theorem wit_ReadBitsOf64ForgetsTheOldAcc : (bench [1, 2, 3, 4, 5, 6, 7, 8] [] (some 0) (some 64) none none).FieldReady 0 64 :=
  ⟨0, 64, rfl, rfl, by decide, by decide, by decide, by decide⟩

theorem wit_SetBitsIgnoresUpperData :
    (bench [0, 0] [] (some 14) (some 2) none none).FieldReady 14 2 ∧ (0xF2#64).toNat % 2 ^ 2 = (0x02#64).toNat % 2 ^ 2 ∧
    exec .setBits { bench [0, 0] [] (some 14) (some 2) none none with data := some 0xF2#64 } =
      .next (bench [0, 2] [] (some 14) (some 2) (some 0xF2#64) none) :=
  ⟨⟨14, 2, rfl, rfl, by decide, by decide, by decide, by decide⟩, by decide, next_of (by decide)⟩

/-- For ReadBitReplacesAcc and SetBitAndClearBitWriteOneBit: the last bit of the store. -/
theorem wit_bitReady : (bench [0x12, 0x34] [] (some 15) none none none).BitReady 15 := ⟨15, rfl, by decide, by decide⟩

theorem wit_FlipAllBitsIsItsOwnInverse : Memory.wf sample.mem = true := by decide

theorem wit_MuxEncodesAndDecodesByLane :
    (Width.w64, 8) ∈ [(Width.w16, 2), (Width.w32, 4), (Width.w64, 8)] ∧ ([1, 2, 3, 4, 5, 6, 7, 8] : List Byte).length = 8 := by
  decide

theorem wit_MuxLaws : (0xFFFF#64).toNat < 2 ^ Width.w16.bits ∧ ([1, 2] : List Byte).length = Width.w16.bytes := by decide

/-- For LittleEndianReads, BigEndianReads, LittleEndianWrites, BigEndianWrites and IntegerRoundTrip at B = 2: two elements
that end with the store, into and out of all of VBUF. -/
theorem wit_vectorReady_16 : (bench [0, 1, 2, 3, 4] [some 1, some 0xFFFF] (some 1) (some 2) none none).VectorReady 2 1 2 ∧
    (bench [0, 1, 2, 3, 4] [some 1, some 0xFFFF] (some 1) (some 2) none none).EntriesHold [1, 0xFFFF] ∧
    (∀ v ∈ ([1, 0xFFFF] : List Word), v.toNat < 2 ^ (8 * 2)) :=
  ⟨⟨1, 2, rfl, rfl, by decide, by decide, by decide, by decide⟩, rfl, by simp⟩

/-- For the same five at B = 4. -/
theorem wit_vectorReady_32 : (bench [0, 1, 2, 3] [some 7] (some 0) (some 1) none none).VectorReady 4 0 1 ∧
    (bench [0, 1, 2, 3] [some 7] (some 0) (some 1) none none).EntriesHold [7] :=
  ⟨⟨0, 1, rfl, rfl, by decide, by decide, by decide, by decide⟩, rfl⟩

/-- For the same five at B = 8. -/
theorem wit_vectorReady_64 : (bench [0, 1, 2, 3, 4, 5, 6, 7] [some 7] (some 0) (some 1) none none).VectorReady 8 0 1 ∧
    (bench [0, 1, 2, 3, 4, 5, 6, 7] [some 7] (some 0) (some 1) none none).EntriesHold [7] :=
  ⟨⟨0, 1, rfl, rfl, by decide, by decide, by decide, by decide⟩, rfl⟩

theorem wit_WriteBytesCopiesTheLowBytes : (bench [0, 0] [some 0x1FF] (some 1) (some 1) none none).VectorReady 1 1 1 ∧
    (bench [0, 0] [some 0x1FF] (some 1) (some 1) none none).EntriesHold [0x1FF] :=
  ⟨⟨1, 1, rfl, rfl, by decide, by decide, by decide, by decide⟩, rfl⟩

/-- 95_test_vectors.md M1 to M3: the element 0xA55A, whose bytes turned are 0x5AA5. -/
theorem wit_ViewsOfOneElementAgree :
    (bench [0, 0] [some 0xA55A] (some 0) (some 1) none none).bufLen < 2 ^ 60 ∧
    (bench [0, 0] [some 0xA55A] (some 0) (some 1) none none).VectorReady 2 0 1 ∧
    (bench [0, 0] [some 0xA55A] (some 0) (some 1) none none).EntriesHold [0xA55A] ∧
    (0xA55A#64).toNat = (0xA55A#64).toNat % 2 ^ (8 * 2) ∧
    (0x5AA5#64).toNat = ∑ i ∈ Finset.range 2, ((0xA55A#64).extractLsb' (8 * i) 8).toNat * 2 ^ (8 * (2 - 1 - i)) :=
  ⟨by decide, ⟨0, 1, rfl, rfl, by decide, by decide, by decide, by decide⟩, rfl, by decide, by decide⟩

theorem wit_CommandFrame :
    exec .readBit (bench [0x80] [none] (some 0) none none none) = .next (bench [0x80] [none] (some 0) none none (some 1)) ∧
    Instr.readBit ∉ [Instr.readU16Le, Instr.readU16Be, Instr.readU32Le, Instr.readU32Be, Instr.readU64Le,
      Instr.readU64Be] ∧
    exec .setBit (bench [0] [none] (some 0) none none none) = .next (bench [0x80] [none] (some 0) none none none) ∧
    Instr.setBit ∉ [Instr.readBits, Instr.readBit] :=
  ⟨next_of (by decide), by decide, next_of (by decide), by decide⟩

/-- Addresses just below and just above the written range [2, 3), and the entry at COUNT. -/
theorem wit_VectorCommandsStayInTheirRange :
    exec .writeBytes (bench [1, 1, 1, 1] [some 7] (some 2) (some 1) none none) =
      .next (bench [1, 1, 7, 1] [some 7] (some 2) (some 1) none none) ∧
    ((1 : Nat) : Int) < (2#64).toInt ∧ (2#64).toInt + (1#64).toInt * (1 : Nat) ≤ ((3 : Nat) : Int) ∧
    exec .readU16Be (bench [1, 2] [none, some 5] (some 0) (some 1) none none) =
      .next (bench [1, 2] [some 0x0102, some 5] (some 0) (some 1) none none) ∧ (1#64).toInt ≤ ((1 : Nat) : Int) :=
  ⟨next_of (by decide), by decide, by decide, next_of (by decide), by decide⟩

theorem wit_VectorCommandsStayInTheirRange_unwritten :
    (bench [1] [some 7] none none none none).offset = none ∧
    exec .writeBytes (bench [1] [some 7] none none none none) =
      .next ((bench [1] [some 7] none none none none).takeFault .uninitializedOperand) ∧
    (bench [1] [none] (some 0) none none none).count = none ∧
    exec .readU16Le (bench [1] [none] (some 0) none none none) =
      .next ((bench [1] [none] (some 0) none none none).takeFault .uninitializedOperand) :=
  ⟨by decide, next_of (by decide), by decide, next_of (by decide)⟩

theorem wit_BitCommandsStayInTheirRange :
    exec .setBits (bench [0xFF] [] (some 2) (some 4) (some 0) none) =
      .next (bench [0xC3] [] (some 2) (some 4) (some 0) none) ∧
    ((1 : Nat) : Int) < (2#64).toInt ∧ (2#64).toInt + (4#64).toInt ≤ ((6 : Nat) : Int) ∧
    exec .clearBit (bench [0xFF] [] (some 7) none none none) = .next (bench [0xFE] [] (some 7) none none none) ∧
    ((6 : Nat) : Int) ≠ (7#64).toInt ∧
    exec .setBit (bench [0xFF] [] none none none none) =
      .next ((bench [0xFF] [] none none none none).takeFault .uninitializedOperand) :=
  ⟨next_of (by decide), by decide, by decide, next_of (by decide), by decide, next_of (by decide)⟩

theorem wit_OnlyTheHostWritesOperands :
    step (queued sample [.regWrite 5 9]) = .next (sample.setData 9) ∧ step sample = .next sample :=
  ⟨next_of (by decide), next_of (by decide)⟩

/-- Clauses (1), (2), (4), (5) and (6): a whole-buffer command. -/
theorem wit_CommandsIgnoreWhatTheyDoNotRead :
    exec .flipAllBits sample = .next (sample.setMem [(0, 0xED), (1, 0xCB)]) ∧ Instr.flipAllBits ≠ .setBits ∧
    Instr.flipAllBits ≠ .readBits ∧ Instr.flipAllBits ≠ .readBit ∧
    Instr.flipAllBits ∈ [Instr.clearAllBits, Instr.setAllBits, Instr.flipAllBits] :=
  ⟨next_of (by decide), by decide, by decide, by decide, by decide⟩

/-- Clause (3), both ways: the last bit of the store, and OFFSET one past it. -/
theorem wit_CommandsIgnoreWhatTheyDoNotRead_readBit :
    exec .readBit (bench [0x01] [] (some 7) none none none) = .next (bench [0x01] [] (some 7) none none (some 1)) ∧
    (∃ k, (bench [0x01] [] (some 7) none none none).BitReady k) ∧
    exec .readBit (bench [0x01] [] (some 8) none none none) =
      .next ((bench [0x01] [] (some 8) none none none).takeFault .storeOutOfBounds) ∧
    ¬∃ k, (bench [0x01] [] (some 8) none none none).BitReady k := by
  refine ⟨next_of (by decide), ⟨7, 7, rfl, by decide, by decide⟩, next_of (by decide), ?_⟩
  rintro ⟨k, off, ho, hk, hlt⟩
  cases ho
  have h8 : (8 : Word).toInt = 8 := by decide
  have hlen : (bench [0x01] [] (some 8) none none none).bufLen = 1 := rfl
  omega

/-- Clauses (7) and (8): the entry at COUNT = 1 differs, and for the read the entry below it too. -/
theorem wit_CommandsIgnoreWhatTheyDoNotRead_vbuf :
    exec .readU16Be (bench [1, 2] [none, some 5] (some 0) (some 1) none none) =
      .next (bench [1, 2] [some 0x0102, some 5] (some 0) (some 1) none none) ∧
    ([some 9, none] : List (Option Word)).length =
      (bench [1, 2] [none, some 5] (some 0) (some 1) none none).vbuf.length ∧
    exec .writeBytes (bench [1, 2] [some 9, some 5] (some 0) (some 1) none none) =
      .next (bench [9, 2] [some 9, some 5] (some 0) (some 1) none none) ∧
    (∀ cnt : Word, (bench [1, 2] [some 9, some 5] (some 0) (some 1) none none).count = some cnt →
      ∀ j : Nat, (j : Int) < cnt.toInt → ([some 9, none] : List (Option Word))[j]? =
        (bench [1, 2] [some 9, some 5] (some 0) (some 1) none none).vbuf[j]?) := by
  refine ⟨next_of (by decide), by decide, next_of (by decide), ?_⟩
  intro cnt hc j hj
  cases hc
  have h1 : (1 : Word).toInt = 1 := by decide
  obtain rfl : j = 0 := by omega
  rfl

theorem wit_CommandsRepeatWithoutEffect :
    Instr.clearAllBits ≠ .readBits ∧ Instr.clearAllBits ≠ .flipAllBits ∧ Memory.wf sample.mem = true ∧
    exec .clearAllBits sample = .next (sample.setMem []) :=
  ⟨by decide, by decide, by decide, next_of (by decide)⟩

theorem wit_ParametersNeverChange : step (queued sample [.reset]) = .next sample.applyReset :=
  next_of (by decide)

/-- The invariant holds right after reset. -/
theorem wit_reset_inv : State.Inv State.reset := ⟨by decide, by decide, by decide, .inl ⟨rfl, rfl⟩⟩

/-- The invariant holds of a state with a fault recorded, whose next step completes. -/
theorem wit_StepKeepsInvariant :
    State.Inv (queued faultedSample [.storeWrite 1 0]) ∧
    step (queued faultedSample [.storeWrite 1 0]) = .next (faultedSample.setMem [(0, 0x12)]) :=
  ⟨⟨by decide, by decide, by decide, .inr ⟨.illegalCommand, by decide, by decide, by decide⟩⟩, next_of (by decide)⟩

theorem wit_IssuedWholeBufferCommandsRewriteTheStore :
    (queued sample [.regWrite 0 ((0x18#32).setWidth 64)]).status.getLsbD 0 = false ∧
    (queued sample [.regWrite 0 ((0x18#32).setWidth 64)]).pending = .regWrite 0 ((0x18#32).setWidth 64) :: [] ∧
    (queued sample [.regWrite 0 ((0x1A#32).setWidth 64)]).pending = .regWrite 0 ((0x1A#32).setWidth 64) :: [] := by decide

theorem wit_StatusFieldsUnderTheInvariant :
    State.Inv faultedSample ∧ faultedSample.status.getLsbD 0 = true ∧ State.reset.status.getLsbD 0 = false :=
  ⟨⟨by decide, by decide, by decide, .inr ⟨.illegalCommand, by decide, by decide, by decide⟩⟩, by decide, by decide⟩

end Sys2Proof.Tests
end

/-! PROOFS. The host's transactions (R31, R42 to R44): one rule per transaction, in and out of range, and the statements
that follow from them. -/

namespace Sys2Proof.Machine

section Rules

variable {s : State} {rest : List HostMove}

/-! ### Store transactions -/

theorem step_storeWrite_inside {a : Nat} {b : Byte} (hp : s.pending = .storeWrite a b :: rest) (ha : a < s.bufLen) :
    step s = .next ((s.setPending rest).setMem (Memory.write s.mem a b)) :=
  (step_pending hp).trans (if_pos ha)

theorem step_storeWrite_outside {a : Nat} {b : Byte} (hp : s.pending = .storeWrite a b :: rest) (ha : s.bufLen ≤ a) :
    step s = .refused (.storeAddressOutOfRange a) :=
  (step_pending hp).trans (if_neg (Nat.not_lt.mpr ha))

theorem step_storeRead_inside {a : Nat} (hp : s.pending = .storeRead a :: rest) (ha : a < s.bufLen) :
    step s = .next ((s.setPending rest).addReply (.byte (s.byteAt a))) :=
  (step_pending hp).trans (if_pos ha)

theorem step_storeRead_outside {a : Nat} (hp : s.pending = .storeRead a :: rest) (ha : s.bufLen ≤ a) :
    step s = .refused (.storeAddressOutOfRange a) :=
  (step_pending hp).trans (if_neg (Nat.not_lt.mpr ha))

/-! ### VBUF transactions -/

theorem step_vbufWrite_inside {j : Nat} {v : Word} (hp : s.pending = .vbufWrite j v :: rest) (hj : j < s.vbuf.length) :
    step s = .next ((s.setPending rest).setEntry j v) :=
  (step_pending hp).trans (if_pos hj)

theorem step_vbufWrite_outside {j : Nat} {v : Word} (hp : s.pending = .vbufWrite j v :: rest)
    (hj : s.vbuf.length ≤ j) : step s = .refused (.vbufIndexOutOfRange j) :=
  (step_pending hp).trans (if_neg (Nat.not_lt.mpr hj))

theorem step_vbufRead_inside {j : Nat} (hp : s.pending = .vbufRead j :: rest) (hj : j < s.vbuf.length) :
    step s = .next ((s.setPending rest).addReply (.word (s.readEntry j))) :=
  (step_pending hp).trans (if_pos hj)

theorem step_vbufRead_outside {j : Nat} (hp : s.pending = .vbufRead j :: rest) (hj : s.vbuf.length ≤ j) :
    step s = .refused (.vbufIndexOutOfRange j) :=
  (step_pending hp).trans (if_neg (Nat.not_lt.mpr hj))

/-- An entry that exists is read as it stands, written or not. -/
theorem State.readEntry_of_getElem? {j : Nat} {e : Option Word} (h : s.vbuf[j]? = some e) : s.readEntry j = e := by
  simp [State.readEntry, h]

/-! ### Register transactions -/

theorem step_regRead {n : Fin 16} (hp : s.pending = .regRead n :: rest) :
    step s = .next ((s.setPending rest).addReply (.word (s.readRegister n))) :=
  step_pending hp

theorem step_regWrite {n : Fin 16} {v : Word} (hp : s.pending = .regWrite n v :: rest) :
    step s = (s.setPending rest).writeRegister n v :=
  step_pending hp

/-- R22: the numbers that no register has. -/
theorem regOfNumber_reserved : ∀ {n : Fin 16}, 7 ≤ n.val → regOfNumber n = .reserved := by decide

theorem State.readRegister_reserved {n : Fin 16} (h : regOfNumber n = .reserved) : s.readRegister n = some 0#64 := by
  simp [State.readRegister, h]

/-- R24, R25, R31: the registers that the host cannot write. -/
theorem State.writeRegister_ignored {n : Fin 16} (v : Word)
    (h : regOfNumber n = .status ∨ regOfNumber n = .faultCmd ∨ regOfNumber n = .reserved) :
    s.writeRegister n v = .next s := by
  obtain h | h | h := h <;> simp [State.writeRegister, h]

end Rules

/-- Settles O13: the rules of the two store transactions, and the laws of a read after a write. -/
theorem storeTransactions : Obligations.StoreTransactions := by
  intro s a rest
  refine ⟨fun b hp ha => ⟨_, step_storeWrite_inside hp ha, rfl, ?same, fun a' hne => ?other⟩,
    step_storeRead_inside, fun b => step_storeWrite_outside, step_storeRead_outside⟩
  case same => exact Memory.read_write_same s.mem a b
  case other => exact Memory.read_write_other s.mem b hne

/-- Settles O9: register by register, numbers 7 to 15 together. -/
theorem registerReadsReturnAndChangeNothing : Obligations.RegisterReadsReturnAndChangeNothing := by
  intro s n rest hp
  rw [step_regRead hp]
  obtain ⟨_ | _ | _ | _ | _ | _ | _ | _, hn⟩ := n <;> rfl

/-- Settles O10: numbers 7 to 15 name no register, and numbers 1 and 2 name STATUS and FAULT_CMD. -/
theorem reservedAndReadOnlyRegisters : Obligations.ReservedAndReadOnlyRegisters := by
  intro s n rest
  constructor
  · intro hn hp
    rw [step_regRead hp, State.readRegister_reserved (regOfNumber_reserved hn)]
    rfl
  · intro v hn hp
    rw [step_regWrite hp, State.writeRegister_ignored]
    · rfl
    · obtain hn | hn | hn := hn
      · exact .inr (.inr (regOfNumber_reserved hn))
      · obtain rfl : n = 1 := Fin.ext hn
        exact .inl rfl
      · obtain rfl : n = 2 := Fin.ext hn
        exact .inr (.inl rfl)

/-- Settles O12: the rules of the two VBUF transactions, and the library's laws of `List.set`. -/
theorem vbufTransactions : Obligations.VbufTransactions := by
  intro s j rest
  refine ⟨fun v hp hj => ⟨_, step_vbufWrite_inside hp hj, rfl, ?length, ?same, fun j' hne => ?other⟩,
    fun hp e he => ?read, fun v => step_vbufWrite_outside, step_vbufRead_outside⟩
  case length => exact List.length_set
  case same => exact List.getElem?_set_self hj
  case other => exact List.getElem?_set_ne hne.symm
  case read =>
    obtain ⟨hj, -⟩ := List.getElem?_eq_some_iff.mp he
    rw [step_vbufRead_inside hp hj, State.readEntry_of_getElem? he]
    rfl

end Sys2Proof.Machine

/-! PROOFS. The command word (R90 to R99): a word decodes to a command exactly when it is that command's word, so the
illegal words are the complement of the table; and the step that issues one (R202). -/

namespace Sys2Proof

/-! ### Fields of a word -/

/-- R90: a word is RSV above OPC. -/
theorem rsvField_append_opcField (w : CmdWord) : rsvField w ++ opcField w = w :=
  BitVec.extractLsb'_append_extractLsb' (w := 24) (len := 8)

theorem rsvField_toNat (w : CmdWord) : (rsvField w).toNat = w.toNat / 256 := by
  have hlt : w.toNat < 2 ^ 32 := w.isLt
  rw [rsvField, BitVec.extractLsb'_toNat, Nat.shiftRight_eq_div_pow]
  omega

theorem opcField_toNat (w : CmdWord) : (opcField w).toNat = w.toNat % 256 :=
  BitVec.extractLsb'_toNat ..

/-- R92: OPC is GRP above SUB. -/
theorem grpField_append_subField (w : CmdWord) : grpField w ++ subField w = opcField w :=
  BitVec.extractLsb'_append_extractLsb' (w := 4) (len := 4)

/-- The three fields together fix the word. -/
theorem append_of_fields {w : CmdWord} {g : BitVec 4} (hr : rsvField w = 0) (hg : (grpField w).toNat = g.toNat) :
    0#24 ++ (g ++ subField w) = w := by
  rw [← BitVec.eq_of_toNat_eq hg, grpField_append_subField, ← BitVec.ofNat_eq_ofNat, ← hr, rsvField_append_opcField]

/-! ### What the decoder accepts -/

/-- R93. -/
theorem encode_of_decodeBitGroup {sub : BitVec 4} {i : Instr} (h : decodeBitGroup sub = .ok i) :
    encode i = 0#24 ++ (0x1#4 ++ sub) := by
  cases i <;> revert sub <;> decide

/-- R94. -/
theorem encode_of_decodeIntegerGroup {sub : BitVec 4} {i : Instr} (h : decodeIntegerGroup sub = .ok i) :
    encode i = 0#24 ++ (0x2#4 ++ sub) := by
  cases i <;> revert sub <;> decide

/-- R95. -/
theorem encode_of_decodeCopyGroup {sub : BitVec 4} {i : Instr} (h : decodeCopyGroup sub = .ok i) :
    encode i = 0#24 ++ (0x3#4 ++ sub) := by
  cases i <;> revert sub <;> decide

/-- R97, R99: the decoder accepts only the words of the table. -/
theorem encode_of_decode {w : CmdWord} {i : Instr} (h : decode w = .ok i) : encode i = w := by
  unfold decode at h
  split at h
  · cases h
  · next hr =>
    have hr : rsvField w = 0 := not_not.mp hr
    split at h
    · next hg => exact (encode_of_decodeBitGroup h).trans (append_of_fields hr hg)
    · next hg => exact (encode_of_decodeIntegerGroup h).trans (append_of_fields hr hg)
    · next hg => exact (encode_of_decodeCopyGroup h).trans (append_of_fields hr hg)
    · cases h

/-- R97, R99: the decoder accepts every word of the table, as the command it stands for. -/
@[simp] theorem decode_encode (i : Instr) : decode (encode i) = .ok i := by
  cases i <;> rfl

/-- R99: decoding is the exact match of the opcode map. -/
theorem decode_eq_ok_iff {w : CmdWord} {i : Instr} : decode w = .ok i ↔ encode i = w :=
  ⟨encode_of_decode, fun h => h ▸ decode_encode i⟩

theorem mem_allInstrs (i : Instr) : i ∈ Machine.allInstrs := by
  cases i <;> decide

/-! ### What the decoder rejects -/

/-- R98: the illegal words are those that no command has. -/
theorem decode_eq_error_iff {w : CmdWord} : (∃ e, decode w = .error e) ↔ w ∉ Machine.allInstrs.map encode := by
  have legal : w ∈ Machine.allInstrs.map encode ↔ ∃ i, decode w = .ok i := by
    simp [mem_allInstrs, decode_eq_ok_iff]
  rw [legal]
  cases decode w <;> simp

/-- R98: a word is none of the table's exactly when RSV is not 0 or OPC lies in one of the gaps. Both say it of the word
as a number, whose high part RSV and low part OPC are. -/
theorem not_mem_table_iff (w : CmdWord) :
    w ∉ Machine.allInstrs.map encode ↔
      rsvField w ≠ 0 ∨ (opcField w).toNat ≤ 0x0F ∨
      (0x15 ≤ (opcField w).toNat ∧ (opcField w).toNat ≤ 0x17) ∨
      (0x1B ≤ (opcField w).toNat ∧ (opcField w).toNat ≤ 0x1F) ∨
      (opcField w).toNat = 0x26 ∨ (opcField w).toNat = 0x27 ∨
      (opcField w).toNat = 0x2E ∨ (opcField w).toNat = 0x2F ∨ 0x31 ≤ (opcField w).toNat := by
  simp only [Machine.allInstrs, List.map, encode, List.mem_cons, List.not_mem_nil, or_false, not_or, ne_eq,
    ← BitVec.toNat_inj, rsvField_toNat, opcField_toNat, BitVec.ofNat_eq_ofNat, BitVec.toNat_ofNat]
  omega

end Sys2Proof

namespace Sys2Proof.Machine

/-- R23, R202: issuing an illegal word with no fault recorded. -/
theorem step_issue_illegal {s : State} {v : Word} {rest : List HostMove} {e : Illegal}
    (hp : s.pending = .regWrite 0 v :: rest) (hf : s.faulted = false) (hd : decode (v.setWidth 32) = .error e) :
    step s = .next (((s.setPending rest).setCmd (v.setWidth 32)).takeFault .illegalCommand) :=
  (step_regWrite hp).trans (State.issue_illegal hf hd)

/-- Settles O5: R98's two readings of the complement of the table, and the rule of issuing an illegal word. -/
theorem illegalWordsRaiseIllegalCommand : Obligations.IllegalWordsRaiseIllegalCommand := by
  intro w
  refine ⟨decode_eq_error_iff, decode_eq_error_iff.trans (not_mem_table_iff w), ?issued⟩
  case issued =>
    rintro ⟨e, he⟩ s v rest hp rfl hf
    rw [← BitVec.setWidth_eq_extractLsb' (by decide)] at he ⊢
    exact step_issue_illegal hp hf he

end Sys2Proof.Machine

/-! PROOFS. The step that issues a legal word (R23), and the whole-buffer commands (R137, R142, R147): each applies one
function to every byte of the store. -/

namespace Sys2Proof.Machine

/-- R23: issuing a legal word with no fault recorded. -/
theorem step_issue_legal {s : State} {v : Word} {rest : List HostMove} {i : Instr}
    (hp : s.pending = .regWrite 0 v :: rest) (hf : s.faulted = false) (hd : decode (v.setWidth 32) = .ok i) :
    step s = exec i ((s.setPending rest).setCmd (v.setWidth 32)) :=
  (step_regWrite hp).trans (State.issue_legal hf hd)

/-- The same for a command's own word, zero-extended as `issueMove` sends it. -/
theorem step_issue_encode {s : State} {rest : List HostMove} {i : Instr}
    (hp : s.pending = .regWrite 0 ((encode i).setWidth 64) :: rest) (hf : s.faulted = false) :
    step s = exec i ((s.setPending rest).setCmd (encode i)) := by
  have hw : ((encode i).setWidth 64).setWidth 32 = encode i := BitVec.setWidth_setWidth_of_le _ (by decide)
  rw [step_issue_legal hp hf (by rw [hw, decode_encode]), hw]

/-! ### One function over the whole store -/

/-- The state with `f` applied to every byte of the store. -/
def State.mapStore (s : State) (f : Byte → Byte) : State := s.setMem (Memory.mapBelow f s.bufLen s.mem)

theorem State.byteAt_mapStore_inside {s : State} (f : Byte → Byte) {a : Nat} (ha : a < s.bufLen) :
    (s.mapStore f).byteAt a = f (s.byteAt a) :=
  (Memory.read_mapBelow f s.bufLen s.mem a).trans (if_pos ha)

theorem State.byteAt_mapStore_outside {s : State} (f : Byte → Byte) {a : Nat} (ha : s.bufLen ≤ a) :
    (s.mapStore f).byteAt a = s.byteAt a :=
  (Memory.read_mapBelow f s.bufLen s.mem a).trans (if_neg (Nat.not_lt.mpr ha))

theorem exec_clearAllBits_eq_mapStore (s : State) : exec .clearAllBits s = .next (s.mapStore fun _ => 0x00#8) :=
  execClearAllBits_eq s

theorem exec_setAllBits_eq_mapStore (s : State) : exec .setAllBits s = .next (s.mapStore fun _ => 0xFF#8) :=
  execSetAllBits_eq s

/-- R147: the exclusive or with 0xFF is the complement. -/
theorem exec_flipAllBits_eq_mapStore (s : State) : exec .flipAllBits s = .next (s.mapStore fun b => ~~~b) := by
  have hxor : (fun b : Byte => b ^^^ 0xFF#8) = fun b => ~~~b := funext fun b => BitVec.xor_allOnes (x := b)
  rw [← hxor]
  exact execFlipAllBits_eq s

/-- Issuing a command that maps the store by `f` does that, takes the transaction and puts the word in CMD. -/
theorem step_issue_mapStore {s : State} {rest : List HostMove} {i : Instr} {f : Byte → Byte}
    (hi : ∀ u, exec i u = .next (u.mapStore f)) (hf : s.faulted = false)
    (hp : s.pending = .regWrite 0 ((encode i).setWidth 64) :: rest) :
    ∃ t, step s = .next t ∧ t = { s with pending := rest, cmd := encode i, mem := t.mem } ∧
      (∀ a < s.bufLen, t.byteAt a = f (s.byteAt a)) ∧ ∀ a, s.bufLen ≤ a → t.byteAt a = s.byteAt a :=
  ⟨_, (step_issue_encode hp hf).trans (hi _), rfl, fun _ => State.byteAt_mapStore_inside f,
    fun _ => State.byteAt_mapStore_outside f⟩

/-- Settles O52: the three words are those of the commands that map the store by their `f`. -/
theorem issuedWholeBufferCommandsRewriteTheStore : Obligations.IssuedWholeBufferCommandsRewriteTheStore := by
  rintro s w f rest (⟨rfl, rfl⟩ | ⟨rfl, rfl⟩ | ⟨rfl, rfl⟩) hf hp
  · exact step_issue_mapStore exec_clearAllBits_eq_mapStore hf hp
  · exact step_issue_mapStore exec_setAllBits_eq_mapStore hf hp
  · exact step_issue_mapStore exec_flipAllBits_eq_mapStore hf hp

end Sys2Proof.Machine

/-! PROOFS. The fault record (R208, R210): a command that succeeds does not write it, a command that faults writes nothing
else, and in the faulted state no transaction but RESET writes it. -/

namespace Sys2Proof.Machine

/-! ### Faults are precise -/

/-- R68: a command that succeeds writes the store, ACC or VBUF, none of which is the fault record. -/
theorem State.Did.keeps_fault_record {s t : State} {i : Instr} (h : State.Did s i t) :
    t.status = s.status ∧ t.faultCmd = s.faultCmd := by
  cases h with
  | store m _ _ => exact ⟨s.setMem_status m, s.setMem_faultCmd m⟩
  | acc v _ => exact ⟨s.setAcc_status v, s.setAcc_faultCmd v⟩
  | load w e a n _ => exact ⟨rfl, rfl⟩

/-- Settles O23: `exec_next_cases` for the commands, and the rule of issuing an illegal word. -/
theorem faultsArePrecise : Obligations.FaultsArePrecise := by
  constructor
  case left =>
    intro i s t h
    obtain hdid | ⟨c, hc, rfl⟩ := exec_next_cases h
    · exact .inr hdid.keeps_fault_record
    · exact .inl ⟨c, hc, rfl⟩
  case right =>
    intro s v rest e hp hf hd
    rw [← BitVec.setWidth_eq_extractLsb' (by decide)] at hd ⊢
    exact step_issue_illegal hp hf hd

/-! ### The one way out of the faulted state -/

/-- R209, R210: in the faulted state no word is issued, and the other transactions write neither the fault record nor CMD,
but for RESET. -/
theorem State.Transacted.keeps_fault_record {s t : State} {m : HostMove} (h : State.Transacted s m t)
    (hf : s.faulted = true) (hm : m ≠ .reset) :
    t.status = s.status ∧ t.faultCmd = s.faultCmd ∧ t.cmd = s.cmd := by
  cases h with
  | command _ _ _ hclear => exact absurd hf (Bool.eq_false_iff.mp hclear)
  | illegal _ _ _ hclear => exact absurd hf (Bool.eq_false_iff.mp hclear)
  | reset => exact absurd rfl hm
  | ignored | offset | count | data | acc | readRegister | readEntry | readByte | entry | byte => exact ⟨rfl, rfl, rfl⟩

/-- The latch is a field of STATUS, so a step that keeps STATUS keeps it (R24). -/
theorem State.faulted_congr {s t : State} (h : t.status = s.status) : t.faulted = s.faulted :=
  congrArg (BitVec.getLsbD · 0) h

/-- R210, one half: a step that does not take RESET keeps the fault record, CMD and the latch. -/
theorem step_keeps_fault_record {s t : State} (hf : s.faulted = true) (h : step s = .next t)
    (hm : s.pending.head? ≠ some .reset) :
    t.status = s.status ∧ t.faultCmd = s.faultCmd ∧ t.cmd = s.cmd ∧ t.faulted = true := by
  obtain ⟨-, rfl⟩ | ⟨m, rest, hp, ht⟩ := step_cases h
  · exact ⟨rfl, rfl, rfl, hf⟩
  · have hm' : m ≠ .reset := by simpa [hp] using hm
    obtain ⟨hstatus, hfaultCmd, hcmd⟩ := ht.keeps_fault_record hf hm'
    exact ⟨hstatus, hfaultCmd, hcmd, (State.faulted_congr hstatus).trans hf⟩

/-- R210, R230, the other half: a step that takes RESET clears the latch. -/
theorem step_reset_not_faulted {s t : State} (h : step s = .next t) (hm : s.pending.head? = some .reset) :
    t.faulted = false := by
  obtain ⟨rest, hp⟩ := List.head?_eq_some_iff.mp hm
  obtain rfl : (s.setPending rest).applyReset = t := Host.Outcome.next.inj ((step_pending hp).symm.trans h)
  exact State.faulted_applyReset _

/-- Settles O8: its two halves. -/
theorem onlyResetLeavesTheFaultedState : Obligations.OnlyResetLeavesTheFaultedState :=
  fun _ _ hf h => ⟨step_keeps_fault_record hf h, step_reset_not_faulted h⟩

end Sys2Proof.Machine

/-! PROOFS. RESET (R230, R231): the control registers and operands cleared, the store kept. -/

namespace Sys2Proof.Machine

/-- R230: RESET is taken in every state, and takes its own transaction from the queue. -/
theorem step_reset {s : State} {rest : List HostMove} (hp : s.pending = .reset :: rest) :
    step s = .next (s.setPending rest).applyReset :=
  step_pending hp

/-- Settles O1: the step is `step_reset`, which clears the latch; `applyReset` writes the listed fields and no other. -/
theorem resetClearsRegistersAndKeepsStore : Obligations.ResetClearsRegistersAndKeepsStore :=
  fun _ _ hp => ⟨_, step_reset hp, State.faulted_applyReset _, rfl⟩

end Sys2Proof.Machine

/-! PROOFS. Decode against encode, both ways (R97, R99). -/

namespace Sys2Proof

/-- Settles O16: `decode_eq_ok_iff`, read from the word's side. -/
theorem decodeAndEncodeAgree : Obligations.DecodeAndEncodeAgree :=
  fun _ _ => decode_eq_ok_iff.trans eq_comm

/-- Settles O17: the bits of each word, read through the decoder. -/
theorem writtenOutWordsDecode : Obligations.WrittenOutWordsDecode :=
  ⟨decode_encode .readBits, decode_encode .flipAllBits, decode_encode .readU32Be, decode_encode .writeU64Le,
    decode_encode .writeBytes, rfl, rfl⟩

end Sys2Proof

/-! PROOFS. What every command and every transaction keeps: the parameters, the registers that are not its own, the
canonical form of memory and the legal fault record (R6, R68, R69, R71), assembled into the invariant. -/

namespace Sys2Proof.Machine

/-! ### The frame of a command -/

/-- R68, R69: what a successful command leaves unchanged. -/
theorem State.Did.frame {s t : State} {i : Instr} (h : State.Did s i t) :
    t.bufLen = s.bufLen ∧ t.cmd = s.cmd ∧ t.offset = s.offset ∧ t.count = s.count ∧ t.data = s.data ∧
    t.pending = s.pending ∧ t.replies = s.replies ∧ t.vbuf.length = s.vbuf.length ∧
    (i ∉ [Instr.readBits, Instr.readBit] → t.acc = s.acc) ∧
    (i ∉ [Instr.readU16Le, Instr.readU16Be, Instr.readU32Le, Instr.readU32Be, Instr.readU64Le, Instr.readU64Be] →
      t.vbuf = s.vbuf) ∧
    (i ∈ [Instr.readBits, Instr.readBit, Instr.readU16Le, Instr.readU16Be, Instr.readU32Le, Instr.readU32Be,
        Instr.readU64Le, Instr.readU64Be] → t.mem = s.mem) := by
  cases h with
  | store m _ hi =>
    exact ⟨rfl, rfl, rfl, rfl, rfl, rfl, rfl, rfl, fun _ => rfl, fun _ => rfl, fun hread => absurd hread hi⟩
  | acc v hi =>
    exact ⟨rfl, rfl, rfl, rfl, rfl, rfl, rfl, rfl, fun hne => absurd hi hne, fun _ => rfl, fun _ => rfl⟩
  | load w e a n hi =>
    exact ⟨rfl, rfl, rfl, rfl, rfl, rfl, rfl, s.vbufLoaded_length w e s.vbuf a 0 n, fun _ => rfl,
      fun hne => absurd hi hne, fun _ => rfl⟩

/-- Settles O42: the frame of a success, and a fault writes nothing but the fault record. -/
theorem commandFrame : Obligations.CommandFrame := by
  intro i s t h
  obtain hdid | ⟨c, -, rfl⟩ := exec_next_cases h
  · exact hdid.frame
  · exact ⟨rfl, rfl, rfl, rfl, rfl, rfl, rfl, rfl, fun _ => rfl, fun _ => rfl, fun _ => rfl⟩

/-- R72: a command reaches its memory by writes inside the store. -/
theorem exec_mem_reaches {i : Instr} {s t : State} (h : exec i s = .next t) :
    Memory.Reaches s.bufLen s.mem t.mem := by
  obtain hdid | ⟨c, -, rfl⟩ := exec_next_cases h
  · cases hdid with
    | store m hm _ => exact hm
    | acc | load => exact .refl
  · exact .refl

/-! ### The frame of a transaction -/

section Transaction

variable {s t : State} {m : HostMove}

/-- R6: a transaction keeps both sizes. -/
theorem State.Transacted.params_eq (h : State.Transacted s m t) : t.params = s.params := by
  cases h with
  | command n v hn hf i hd ht =>
    obtain ⟨hbuf, -, -, -, -, -, -, hvbuf, -⟩ := commandFrame i _ _ ht
    exact congrArg₂ Config.Params.mk hbuf hvbuf
  | entry j v _ => exact congrArg (Config.Params.mk s.bufLen) (s.vbufLen_setEntry j v)
  | reset => exact congrArg (Config.Params.mk s.bufLen) s.vbufLen_applyReset
  | ignored | illegal | offset | count | data | acc | readRegister | readEntry | readByte | byte => rfl

/-- R75: a transaction adds none and takes none: the queue is the port's. -/
theorem State.Transacted.pending_eq (h : State.Transacted s m t) : t.pending = s.pending := by
  cases h with
  | command n v hn hf i hd ht =>
    obtain ⟨-, -, -, -, -, hpending, -⟩ := commandFrame i _ _ ht
    exact hpending
  | ignored | illegal | offset | count | data | acc | readRegister | readEntry | readByte | entry | byte | reset => rfl

/-- R72: a transaction reaches its memory by writes inside the store. -/
theorem State.Transacted.mem_reaches (h : State.Transacted s m t) : Memory.Reaches s.bufLen s.mem t.mem := by
  cases h with
  | command n v hn hf i hd ht => exact exec_mem_reaches (s := s.setCmd (v.setWidth 32)) ht
  | byte a b ha => exact .write .refl a b ha
  | ignored | illegal | offset | count | data | acc | readRegister | readEntry | readByte | entry | reset => exact .refl

end Transaction

/-- R6: a step keeps both sizes. -/
theorem step_params {s t : State} (h : step s = .next t) : t.params = s.params := by
  obtain ⟨-, rfl⟩ | ⟨m, rest, -, ht⟩ := step_cases h
  · rfl
  · exact ht.params_eq

theorem step_mem_reaches {s t : State} (h : step s = .next t) : Memory.Reaches s.bufLen s.mem t.mem := by
  obtain ⟨-, rfl⟩ | ⟨m, rest, -, ht⟩ := step_cases h
  · exact .refl
  · exact ht.mem_reaches

/-- Settles O49: the two fields of `step_params`. -/
theorem parametersNeverChange : Obligations.ParametersNeverChange :=
  fun _ _ h => ⟨congrArg Config.Params.bufLen (step_params h), congrArg Config.Params.vbufLen (step_params h)⟩

/-- Settles O14: `Transacted.pending_eq` once the oldest transaction is taken, and `step_idle`. -/
theorem transactionsTakeEffectInOrder : Obligations.TransactionsTakeEffectInOrder := by
  refine ⟨fun s t h => ?_, fun _ => step_idle⟩
  obtain ⟨hp, rfl⟩ | ⟨m, rest, hp, ht⟩ := step_cases h
  · rw [hp, List.tail_nil]
  · rw [hp, List.tail_cons, ht.pending_eq, State.setPending_pending]

/-! ### The fault record -/

/-- The fault record is STATUS and FAULT_CMD, and speaks of CMD besides. -/
theorem State.FaultRecordLegal.congr {s t : State} (h : s.FaultRecordLegal)
    (hrecord : t.status = s.status ∧ t.faultCmd = s.faultCmd ∧ t.cmd = s.cmd) : t.FaultRecordLegal := by
  obtain ⟨hstatus, hfaultCmd, hcmd⟩ := hrecord
  simpa only [State.FaultRecordLegal, hstatus, hfaultCmd, hcmd] using h

/-- R24, R25: with the latch clear a legal record is the empty one. -/
theorem State.FaultRecordLegal.eq_zero {s : State} (h : s.FaultRecordLegal) (hf : s.faulted = false) :
    s.status = 0 ∧ s.faultCmd = 0 := by
  obtain hzero | ⟨c, hc, -⟩ := h
  · exact hzero
  · rw [State.faulted, hc, c.statusWord_fields.1] at hf
    cases hf

/-- R208: a recorded cause is legal when the word in CMD can raise it. -/
theorem State.faultRecordLegal_takeFault {s : State} {c : Cause} (h : wordMayRecord s.cmd c = true) :
    (s.takeFault c).FaultRecordLegal :=
  .inr ⟨c, rfl, rfl, h⟩

/-- R201, R207, R208: the command of the word in CMD leaves a legal record when it begins with none. -/
theorem exec_faultRecordLegal {i : Instr} {s t : State} (hs : s.status = 0 ∧ s.faultCmd = 0)
    (hd : decode s.cmd = .ok i) (h : exec i s = .next t) : t.FaultRecordLegal := by
  obtain hdid | ⟨c, hc, rfl⟩ := exec_next_cases h
  · obtain ⟨hstatus, hfaultCmd⟩ := hdid.keeps_fault_record
    exact .inl ⟨hstatus.trans hs.1, hfaultCmd.trans hs.2⟩
  · exact State.faultRecordLegal_takeFault (by simp [wordMayRecord, hd, hc])

theorem State.Transacted.faultRecordLegal {s t : State} {m : HostMove} (h : State.Transacted s m t)
    (hs : s.FaultRecordLegal) : t.FaultRecordLegal := by
  cases h with
  | command n v hn hf i hd ht => exact exec_faultRecordLegal (s := s.setCmd (v.setWidth 32)) (hs.eq_zero hf) hd ht
  | illegal n v hn hf e hd => exact State.faultRecordLegal_takeFault (by simp [wordMayRecord, hd])
  | reset => exact .inl ⟨rfl, rfl⟩
  | ignored | offset | count | data | acc | readRegister | readEntry | readByte | entry | byte =>
    exact hs.congr ⟨rfl, rfl, rfl⟩

theorem step_faultRecordLegal {s t : State} (h : step s = .next t) (hs : s.FaultRecordLegal) :
    t.FaultRecordLegal := by
  obtain ⟨-, rfl⟩ | ⟨m, rest, -, ht⟩ := step_cases h
  · exact hs
  · exact ht.faultRecordLegal (hs.congr ⟨rfl, rfl, rfl⟩)

/-! ### The invariant -/

/-- Settles O50: each part of the invariant is kept by every step. -/
theorem stepKeepsInvariant : Obligations.StepKeepsInvariant := by
  intro s t hs h
  have hbuf : t.bufLen = s.bufLen := (parametersNeverChange s t h).1
  exact {
    params := (step_params h).symm ▸ hs.params
    memWf := (step_mem_reaches h).wf hs.memWf
    memWithin := hbuf.symm ▸ (step_mem_reaches h).within hs.memWithin
    record := step_faultRecordLegal h hs.record }

/-- Settles O3: CLEAN_ENTRY gives the parts that depend on the launch, and the record is empty. -/
theorem cleanEntryMeetsInvariant : Obligations.CleanEntryMeetsInvariant := by
  refine ⟨?_, Config.resetParams, [], [], by decide, rfl, rfl, rfl⟩
  rintro _ ⟨p, launch, moves, hp, hwf, hwithin, rfl⟩
  have hparams : ((State.powerOn p launch).setPending moves).params = p :=
    congrArg (Config.Params.mk p.bufLen) List.length_replicate
  exact { params := hparams.symm ▸ hp, memWf := hwf, memWithin := hwithin, record := .inl ⟨rfl, rfl⟩ }

/-- R201: the codes of the causes. -/
theorem Cause.code_bounds (c : Cause) : 1 ≤ c.code.toNat ∧ c.code.toNat ≤ 5 := by
  cases c <;> decide

/-- Settles O51: the two shapes of a legal record, and the fields of a cause's STATUS word. -/
theorem statusFieldsUnderTheInvariant : Obligations.StatusFieldsUnderTheInvariant := by
  intro s hs
  obtain ⟨hstatus, hfaultCmd⟩ | ⟨c, hstatus, hfaultCmd, -⟩ := hs.record
  · rw [hstatus]
    exact ⟨rfl, fun _ => ⟨rfl, hfaultCmd⟩, fun hf => by cases hf⟩
  · obtain ⟨hlatch, hcause, hreserved⟩ := c.statusWord_fields
    rw [hstatus, hcause]
    refine ⟨hreserved, fun hf => ?_, fun _ => ⟨c.code_bounds.1, c.code_bounds.2, hfaultCmd⟩⟩
    rw [hlatch] at hf
    cases hf

end Sys2Proof.Machine

/-! PROOFS. The end of a run (R240, R243): what `endsWell` asks of one step, and that neither a recorded fault nor a
refusal can be mended later. -/

namespace Sys2Proof.Machine

/-! ### When a step stops -/

/-- R70, R76: every command, in every state, ends in a next state. -/
theorem exec_completes (i : Instr) (s : State) : ∃ t, exec i s = .next t := by
  obtain ⟨t, h, -⟩ := exec_cases i s
  exact ⟨t, h⟩

/-- R41, R240: a register write is never refused and leaves no range. -/
theorem State.writeRegister_completes (s : State) (n : Fin 16) (v : Word) : ∃ t, s.writeRegister n v = .next t := by
  cases hn : regOfNumber n with
  | cmd =>
    simp only [State.writeRegister, hn]
    cases hf : s.faulted with
    | true => exact ⟨s, State.issue_faulted hf v⟩
    | false =>
      cases hd : decode (v.setWidth 32) with
      | ok i =>
        rw [State.issue_legal hf hd]
        exact exec_completes i _
      | error e => exact ⟨_, State.issue_illegal hf hd⟩
  | offset | count | data | acc | status | faultCmd | reserved => simp [State.writeRegister, hn]

/-- Everything a transaction can come to: a next state, or the refusal of an index out of range (R240). -/
theorem State.transact_outcome (s : State) (m : HostMove) :
    (m.wellFormed s.params = true ∧ ∃ t, s.transact m = .next t) ∨
      (m.wellFormed s.params = false ∧ ∃ r, s.transact m = .refused r) := by
  cases m with
  | regWrite n v => exact .inl ⟨rfl, s.writeRegister_completes n v⟩
  | regRead n => exact .inl ⟨rfl, _, rfl⟩
  | reset => exact .inl ⟨rfl, _, rfl⟩
  | vbufWrite j v | vbufRead j =>
    by_cases hj : j < s.vbufLen <;> simp [HostMove.wellFormed, State.params, State.transact, hj]
  | storeWrite a b | storeRead a =>
    by_cases ha : a < s.bufLen <;> simp [HostMove.wellFormed, State.params, State.transact, ha]

/-- Everything a step can come to: a next state, or the refusal of the oldest transaction. -/
theorem step_outcome (s : State) :
    (∃ t, step s = .next t) ∨
      ∃ m rest r, s.pending = m :: rest ∧ m.wellFormed s.params = false ∧ step s = .refused r := by
  cases hp : s.pending with
  | nil => exact .inl ⟨s, step_idle hp⟩
  | cons m rest =>
    rw [step_pending hp]
    obtain ⟨-, ht⟩ | ⟨hm, r, hr⟩ := (s.setPending rest).transact_outcome m
    · exact .inl ht
    · exact .inr ⟨m, rest, r, rfl, hm, hr⟩

/-- Settles O48: `exec_completes`, and the two outcomes a step has. -/
theorem commandsCompleteInsideTheStore : Obligations.CommandsCompleteInsideTheStore := by
  refine ⟨exec_completes, fun s f hfault => ?_⟩
  obtain ⟨t, ht⟩ | ⟨m, rest, r, -, -, hr⟩ := step_outcome s
  · cases ht.symm.trans hfault
  · cases hr.symm.trans hfault

/-! ### Runs -/

/-- What R243 asks of a run's first step. -/
theorem State.endsWell_succ {s : State} {n : Nat} (h : s.endsWell (n + 1) = true) :
    ¬(s.faulted = true ∧ s.pending.head? = some .reset) ∧ ∃ t, step s = .next t ∧ t.endsWell n = true := by
  unfold State.endsWell at h
  split at h
  · cases h
  · next hreset =>
    refine ⟨by simpa using hreset, ?_⟩
    cases hstep : step s with
    | next t => exact ⟨t, rfl, by simpa [hstep] using h⟩
    | fault f => simp [hstep] at h
    | refused r => simp [hstep] at h

/-- Settles O7, by induction on the transactions still to come: a step that is no RESET keeps the latch set, and a RESET
spoils the run. -/
theorem faultedRunNeverEndsSuccessfully : Obligations.FaultedRunNeverEndsSuccessfully := by
  intro k
  induction k with
  | zero => intro s hf; simp [State.endsWell, hf]
  | succ n ih =>
    intro s hf
    refine Bool.eq_false_iff.mpr fun h => ?_
    obtain ⟨hreset, t, hstep, ht⟩ := State.endsWell_succ h
    obtain ⟨-, -, -, hft⟩ := step_keeps_fault_record hf hstep fun hhead => hreset ⟨hf, hhead⟩
    exact Bool.eq_false_iff.mp (ih t hft) ht

/-- A run that is refused within `k` transactions does not end successfully, by induction on `k`. -/
theorem endsWell_of_run_refused {k : Nat} {s : State} {r : Refusal}
    (h : Host.Core.run Sys2Proof.core k s = .refused r) {m : Nat} (hm : k ≤ m) : s.endsWell m = false := by
  induction k generalizing s m with
  | zero => cases h
  | succ k ih =>
    obtain ⟨n, rfl⟩ : ∃ n, m = n + 1 := ⟨m - 1, by omega⟩
    refine Bool.eq_false_iff.mpr fun hends => ?_
    obtain ⟨-, t, hstep, ht⟩ := State.endsWell_succ hends
    have hcore : Sys2Proof.core.step s = .next t := hstep
    have hrest : Host.Core.run Sys2Proof.core k t = .refused r := by simpa only [Host.Core.run, hcore] using h
    exact Bool.eq_false_iff.mp (ih hrest (by omega)) ht

/-- R240: the moves that are out of range, case by case. -/
theorem HostMove.not_wellFormed_iff {p : Config.Params} {m : HostMove} :
    m.wellFormed p = false ↔
      (∃ j v, p.vbufLen ≤ j ∧ m = .vbufWrite j v) ∨ (∃ j, p.vbufLen ≤ j ∧ m = .vbufRead j) ∨
      (∃ a b, p.bufLen ≤ a ∧ m = .storeWrite a b) ∨ ∃ a, p.bufLen ≤ a ∧ m = .storeRead a := by
  cases m <;> simp [HostMove.wellFormed]

/-- Settles O15: `step_outcome` one way and the rules of the four transactions the other; then `endsWell_of_run_refused`. -/
theorem refusalsAreExactlyTheOutOfRangeMoves : Obligations.RefusalsAreExactlyTheOutOfRangeMoves := by
  refine ⟨fun s => ⟨?refused, ?outOfRange⟩, fun k s r h m hm => endsWell_of_run_refused h hm⟩
  case refused =>
    rintro ⟨r, hr⟩
    obtain ⟨t, ht⟩ | ⟨m, rest, -, hp, hm, -⟩ := step_outcome s
    · cases ht.symm.trans hr
    · refine ⟨rest, ?_⟩
      obtain ⟨j, v, hj, rfl⟩ | ⟨j, hj, rfl⟩ | ⟨a, b, ha, rfl⟩ | ⟨a, ha, rfl⟩ := HostMove.not_wellFormed_iff.mp hm
      · exact .inl ⟨j, v, hj, hp⟩
      · exact .inr (.inl ⟨j, hj, hp⟩)
      · exact .inr (.inr (.inl ⟨a, b, ha, hp⟩))
      · exact .inr (.inr (.inr ⟨a, ha, hp⟩))
  case outOfRange =>
    rintro ⟨rest, ⟨j, v, hj, hp⟩ | ⟨j, hj, hp⟩ | ⟨a, b, ha, hp⟩ | ⟨a, ha, hp⟩⟩
    · exact ⟨_, step_vbufWrite_outside hp hj⟩
    · exact ⟨_, step_vbufRead_outside hp hj⟩
    · exact ⟨_, step_storeWrite_outside hp ha⟩
    · exact ⟨_, step_storeRead_outside hp ha⟩

end Sys2Proof.Machine

/-! PROOFS. Power-on (R232), writes to the registers (R23, R41, R209), who writes the operands (R26 to R28), the STATUS
words (R201) and the line that issues a command (R100). -/

namespace Sys2Proof.Machine

/-- Settles O2: the fields of `powerOn` as R232 lists them. -/
theorem powerOnRegistersAndStore : Obligations.PowerOnRegistersAndStore :=
  ⟨fun _ _ => ⟨rfl, rfl, rfl, rfl, rfl, rfl, rfl, List.length_replicate,
    fun _ hj => List.getElem?_replicate_of_lt hj, rfl, fun _ => rfl⟩, rfl⟩

/-- Settles O4: `step_issue_legal`, with the low half of the value written as bits 31:0. -/
theorem stepRunsTheDecodedCommand : Obligations.StepRunsTheDecodedCommand := by
  intro s v rest i hp hf hd
  rw [← BitVec.setWidth_eq_extractLsb' (by decide)] at hd ⊢
  exact step_issue_legal hp hf hd

/-- Settles O6: the latch drops the write. -/
theorem faultedStateDropsCommandWrites : Obligations.FaultedStateDropsCommandWrites :=
  fun s v rest hp hf => (step_regWrite hp).trans (State.issue_faulted (s := s.setPending rest) hf v)

/-- Settles O11: numbers 3 to 6 are OFFSET, COUNT, DATA and ACC. -/
theorem operandRegisterWrites : Obligations.OperandRegisterWrites :=
  fun _ _ _ => ⟨step_regWrite, step_regWrite, step_regWrite, step_regWrite⟩

/-- R22: the numbers of OFFSET, COUNT and DATA. -/
theorem regOfNumber_operand : ∀ n : Fin 16,
    (regOfNumber n = .offset → n = 3) ∧ (regOfNumber n = .count → n = 4) ∧ (regOfNumber n = .data → n = 5) := by
  decide

/-- R26 to R28: a transaction changes OFFSET, COUNT and DATA only as a write of that register or as RESET. -/
theorem State.Transacted.operands {s t : State} {m : HostMove} (h : State.Transacted s m t) :
    (t.offset = s.offset ∨ (∃ v, m = .regWrite 3 v ∧ t.offset = some v) ∨ (m = .reset ∧ t.offset = none)) ∧
    (t.count = s.count ∨ (∃ v, m = .regWrite 4 v ∧ t.count = some v) ∨ (m = .reset ∧ t.count = none)) ∧
    (t.data = s.data ∨ (∃ v, m = .regWrite 5 v ∧ t.data = some v) ∨ (m = .reset ∧ t.data = none)) := by
  cases h with
  | command n v hn hf i hd ht =>
    obtain ⟨-, -, hoffset, hcount, hdata, -⟩ := commandFrame i _ _ ht
    exact ⟨.inl hoffset, .inl hcount, .inl hdata⟩
  | offset n v hn =>
    obtain rfl := (regOfNumber_operand n).1 hn
    exact ⟨.inr (.inl ⟨v, rfl, rfl⟩), .inl rfl, .inl rfl⟩
  | count n v hn =>
    obtain rfl := (regOfNumber_operand n).2.1 hn
    exact ⟨.inl rfl, .inr (.inl ⟨v, rfl, rfl⟩), .inl rfl⟩
  | data n v hn =>
    obtain rfl := (regOfNumber_operand n).2.2 hn
    exact ⟨.inl rfl, .inl rfl, .inr (.inl ⟨v, rfl, rfl⟩)⟩
  | reset => exact ⟨.inr (.inr ⟨rfl, rfl⟩), .inr (.inr ⟨rfl, rfl⟩), .inr (.inr ⟨rfl, rfl⟩)⟩
  | ignored | illegal | acc | readRegister | readEntry | readByte | entry | byte => exact ⟨.inl rfl, .inl rfl, .inl rfl⟩

/-- Settles O45: `Transacted.operands` of the oldest transaction, which is the head of the queue. -/
theorem onlyTheHostWritesOperands : Obligations.OnlyTheHostWritesOperands := by
  intro s t h
  obtain ⟨-, rfl⟩ | ⟨m, rest, hp, ht⟩ := step_cases h
  · exact ⟨.inl rfl, .inl rfl, .inl rfl⟩
  · simpa [hp, and_assoc, and_left_comm] using ht.operands

/-- Settles O19: the word of each cause, evaluated. -/
theorem statusWordOfEachCause : Obligations.StatusWordOfEachCause := ⟨rfl, rfl, rfl, rfl, rfl⟩

/-- Log 9: the line has two tokens, the keyword and the mnemonic. -/
theorem tokenize_issueLine (i : Instr) :
    tokenize [] ("issue ".toList ++ (mnemonicOf i).toList) =
      [.text "issue".toList, .text (mnemonicOf i).toList] := by
  cases i <;> decide

/-- R97: no two commands share a mnemonic. -/
theorem instrOfMnemonic_mnemonicOf (i : Instr) : instrOfMnemonic (mnemonicOf i).toList = some i := by
  cases i <;> decide

/-- Settles O18: the keyword `issue` with a mnemonic is the write of that command's word. -/
theorem issueLineWritesTheCommandWord : Obligations.IssueLineWritesTheCommandWord := by
  intro n i
  have hread : readTransaction "issue".toList [.text (mnemonicOf i).toList] = some (issueInstr i) := by
    simp [readTransaction, readIssue, instrOfMnemonic_mnemonicOf]
  simp only [assembleLine, tokenize_issueLine, hread]
  rfl

end Sys2Proof.Machine

/-! PROOFS. The families of commands: the integer commands are `readVector` and `writeVector` at a width and a byte
order, and share their checks with WRITE_BYTES. -/

namespace Sys2Proof.Machine

/-! ### The integer commands by width and byte order (R94) -/

theorem exec_readCommand (w : Width) (e : ByteOrder) (s : State) :
    exec (readCommand w e) s = s.settle (s.readVector w e) := by
  cases w <;> cases e <;> rfl

theorem exec_writeCommand (w : Width) (e : ByteOrder) (s : State) :
    exec (writeCommand w e) s = s.settle (s.writeVector w e) := by
  cases w <;> cases e <;> rfl

/-- A case split over the commands in which the twelve integer commands are two cases. -/
theorem instr_family_cases {P : Instr → Prop} (readBits : P .readBits) (setBits : P .setBits) (readBit : P .readBit)
    (setBit : P .setBit) (clearBit : P .clearBit) (clearAllBits : P .clearAllBits) (setAllBits : P .setAllBits)
    (flipAllBits : P .flipAllBits) (read : ∀ w e, P (readCommand w e)) (write : ∀ w e, P (writeCommand w e))
    (writeBytes : P .writeBytes) (i : Instr) : P i := by
  cases i with
  | readBits => exact readBits
  | setBits => exact setBits
  | readBit => exact readBit
  | setBit => exact setBit
  | clearBit => exact clearBit
  | clearAllBits => exact clearAllBits
  | setAllBits => exact setAllBits
  | flipAllBits => exact flipAllBits
  | readU16Le => exact read .w16 .le
  | readU16Be => exact read .w16 .be
  | readU32Le => exact read .w32 .le
  | readU32Be => exact read .w32 .be
  | readU64Le => exact read .w64 .le
  | readU64Be => exact read .w64 .be
  | writeU16Le => exact write .w16 .le
  | writeU16Be => exact write .w16 .be
  | writeU32Le => exact write .w32 .le
  | writeU32Be => exact write .w32 .be
  | writeU64Le => exact write .w64 .le
  | writeU64Be => exact write .w64 .be
  | writeBytes => exact writeBytes

/-- A table with a row for each width and byte order, and then the rows `l`. -/
theorem exists_width_order_or_mem {α : Type} (f : Width → ByteOrder → α) {x : α} {l : List α}
    (h : x ∈ f .w16 .le :: f .w16 .be :: f .w32 .le :: f .w32 .be :: f .w64 .le :: f .w64 .be :: l) :
    (∃ w e, x = f w e) ∨ x ∈ l := by
  simp only [List.mem_cons] at h
  obtain h | h | h | h | h | h | h := h
  case inr.inr.inr.inr.inr.inr => exact .inr h
  all_goals exact .inl ⟨_, _, h⟩

/-- A table with a row for each width and byte order, and no other. -/
theorem exists_width_order_of_mem {α : Type} (f : Width → ByteOrder → α) {x : α}
    (h : x ∈ [f .w16 .le, f .w16 .be, f .w32 .le, f .w32 .be, f .w64 .le, f .w64 .be]) : ∃ w e, x = f w e :=
  (exists_width_order_or_mem f h).resolve_right List.not_mem_nil

/-- A table with a row for each width. -/
theorem exists_width_of_mem {α : Type} (f : Width → α) {x : α} (h : x ∈ [f .w16, f .w32, f .w64]) : ∃ w, x = f w := by
  simp only [List.mem_cons, List.not_mem_nil, or_false] at h
  obtain h | h | h := h <;> exact ⟨_, h⟩

/-- The integer reads are the commands `readCommand` gives. -/
theorem exists_readCommand {i : Instr} (hi : i ∈ [Instr.readU16Le, Instr.readU16Be, Instr.readU32Le, Instr.readU32Be,
    Instr.readU64Le, Instr.readU64Be]) : ∃ w e, i = readCommand w e :=
  exists_width_order_of_mem readCommand hi

/-- The commands that read VBUF are the integer writes and WRITE_BYTES. -/
theorem exists_writeCommand {i : Instr} (hi : i ∈ [Instr.writeU16Le, Instr.writeU16Be, Instr.writeU32Le,
    Instr.writeU32Be, Instr.writeU64Le, Instr.writeU64Be, Instr.writeBytes]) :
    (∃ w e, i = writeCommand w e) ∨ i = .writeBytes :=
  (exists_width_order_or_mem writeCommand hi).imp_right List.mem_singleton.mp

/-- The element size `B` of a command with a vector operand (R7, R94, R181). -/
inductive VectorCommand : Instr → Nat → Prop
  | read (w : Width) (e : ByteOrder) : VectorCommand (readCommand w e) w.bytes
  | write (w : Width) (e : ByteOrder) : VectorCommand (writeCommand w e) w.bytes
  | writeBytes : VectorCommand .writeBytes 1

/-- The table of the commands that read VBUF. -/
theorem exists_writeCommand_of_mem {i : Instr} {B : Nat}
    (h : (i, B) ∈ [(Instr.writeU16Le, 2), (Instr.writeU16Be, 2), (Instr.writeU32Le, 4), (Instr.writeU32Be, 4),
      (Instr.writeU64Le, 8), (Instr.writeU64Be, 8), (Instr.writeBytes, 1)]) :
    (∃ w e, i = writeCommand w e ∧ B = w.bytes) ∨ (i = .writeBytes ∧ B = 1) := by
  obtain ⟨w, e, hrow⟩ | h := exists_width_order_or_mem (fun w e => (writeCommand w e, w.bytes)) h
  · exact .inl ⟨w, e, Prod.mk.inj hrow⟩
  · exact .inr (Prod.mk.inj (List.mem_singleton.mp h))

/-- R161, R163, R181: a range check that fails is the command's fault. -/
theorem VectorCommand.exec_of_vectorRange {i : Instr} {B : Nat} {s : State} {c : Cause} (hi : VectorCommand i B)
    (h : s.vectorRange B = .error (.raise c)) : exec i s = .next (s.takeFault c) := by
  cases hi with
  | read w e => simp [exec_readCommand, State.readVector, h]
  | write w e => simp [exec_writeCommand, State.writeVector, h]
  | writeBytes => simp [exec, execWriteBytes, h]

/-! ### The entries that a write reads -/

/-- R163 (5), R181 (5): each entry below COUNT is written, and holds its element. -/
theorem State.EntriesHold.getElem? {s : State} {vs : List Word} (h : s.EntriesHold vs) {j : Nat} (hj : j < vs.length) :
    s.vbuf[j]? = some (some vs[j]) := by
  have hentry : (s.vbuf.take vs.length)[j]? = (vs.map some)[j]? := congrArg (·[j]?) h
  rwa [List.getElem?_take_of_lt hj, List.getElem?_map, List.getElem?_eq_getElem hj] at hentry

/-- R163 (5), R181 (5): an unwritten entry below COUNT fails the check on the entries. -/
theorem State.vectorOperand_unwritten {s : State} {n j : Nat} (hn : n ≤ s.vbuf.length) (hj : j < n)
    (h : s.vbuf[j]? = some none) : s.vectorOperand n = .error (.raise .uninitializedOperand) := by
  obtain ⟨vs, rfl, hv, -⟩ | herr := s.vectorOperand_cases hn
  · simp [hv.getElem? hj] at h
  · exact herr

/-! ### What the passed checks say of the sizes (R66, R67) -/

theorem State.BitReady.offset_lt {s : State} {k : Nat} (h : s.BitReady k) : k < 8 * s.bufLen := by
  obtain ⟨_, _, _, hlt⟩ := h
  exact hlt

theorem State.FieldReady.range_le {s : State} {k n : Nat} (h : s.FieldReady k n) : k + n ≤ 8 * s.bufLen := by
  obtain ⟨_, _, _, _, _, _, _, hle⟩ := h
  exact hle

theorem State.VectorReady.range_le {s : State} {B a n : Nat} (h : s.VectorReady B a n) : a + n * B ≤ s.bufLen := by
  obtain ⟨_, _, _, _, _, _, hle, _⟩ := h
  exact hle

theorem State.VectorReady.count_le {s : State} {B a n : Nat} (h : s.VectorReady B a n) : n ≤ s.vbuf.length := by
  obtain ⟨_, _, _, _, _, _, _, hn⟩ := h
  exact hn

/-! ### Bytes and bits are read from the memory alone -/

theorem State.byteAt_congr {s t : State} (h : t.mem = s.mem) (a : Nat) : t.byteAt a = s.byteAt a :=
  congrArg (Memory.read · a) h

theorem State.bitAt_congr {s t : State} (h : t.mem = s.mem) (k : Nat) : t.bitAt k = s.bitAt k :=
  congrArg (BitVec.getLsbD · (7 - k % 8)) (State.byteAt_congr h (k / 8))

end Sys2Proof.Machine

/-! PROOFS. The order of the checks (R207): each check that fails, once those before it have passed, and the commands that
make it. -/

namespace Sys2Proof.Machine

section Checks

variable {s : State} {off cnt : Word}

/-! ### One bit (R121, R126, R131) -/

theorem State.bitOperand_unwritten (h : s.offset = none) : s.bitOperand = .error (.raise .uninitializedOperand) := by
  simp [State.bitOperand, h]

theorem State.bitOperand_outOfBounds (ho : s.offset = some off)
    (h : off.toInt < 0 ∨ 8 * (s.bufLen : Int) ≤ off.toInt) : s.bitOperand = .error (.raise .storeOutOfBounds) := by
  simp [State.bitOperand, ho, storeRange_bad (off := off) (len := 1) (lim := 8 * s.bufLen) (by omega)]

/-- The three commands on one bit record what the check on it raises. -/
theorem exec_of_bitOperand {i : Instr} {c : Cause} (hi : i ∈ [Instr.readBit, Instr.setBit, Instr.clearBit])
    (h : s.bitOperand = .error (.raise c)) : exec i s = .next (s.takeFault c) := by
  simp only [List.mem_cons, List.not_mem_nil, or_false] at hi
  obtain rfl | rfl | rfl := hi
  · simp [exec, execReadBit, h]
  · simp [exec, execSetBit, h]
  · simp [exec, execClearBit, h]

/-! ### A bit field (R111, R116) -/

theorem State.fieldOperands_unwritten {third : Option Word} (h : s.offset = none ∨ s.count = none ∨ third = none) :
    s.fieldOperands third = .error (.raise .uninitializedOperand) := by
  cases ho : s.offset with
  | none => simp [State.fieldOperands, ho]
  | some off =>
    cases hc : s.count with
    | none => simp [State.fieldOperands, ho, hc]
    | some cnt =>
      have hthird : third = none := by simpa [ho, hc] using h
      simp [State.fieldOperands, ho, hc, hthird]

theorem State.fieldOperands_badCount {v : Word} (ho : s.offset = some off) (hc : s.count = some cnt)
    (h : cnt.toInt < 0 ∨ 64 < cnt.toInt) : s.fieldOperands (some v) = .error (.raise .badCount) := by
  simp [State.fieldOperands, ho, hc, fieldCount_bad h]

theorem State.fieldOperands_outOfBounds {v : Word} (ho : s.offset = some off) (hc : s.count = some cnt)
    (hn : 0 ≤ cnt.toInt) (h64 : cnt.toInt ≤ 64)
    (h : off.toInt < 0 ∨ 8 * (s.bufLen : Int) < off.toInt + cnt.toInt) :
    s.fieldOperands (some v) = .error (.raise .storeOutOfBounds) := by
  obtain ⟨n, hn⟩ := Int.eq_ofNat_of_zero_le hn
  simp [State.fieldOperands, ho, hc, fieldCount_ok hn (by omega),
    storeRange_bad (off := off) (len := n) (lim := 8 * s.bufLen) (by omega)]

/-- READ_BITS and SET_BITS record what the checks on the field raise. -/
theorem exec_of_fieldOperands {i : Instr} {third : Option Word} {c : Cause}
    (hi : (i = .readBits ∧ third = s.acc) ∨ (i = .setBits ∧ third = s.data))
    (h : s.fieldOperands third = .error (.raise c)) : exec i s = .next (s.takeFault c) := by
  obtain ⟨rfl, rfl⟩ | ⟨rfl, rfl⟩ := hi
  · simp [exec, execReadBits, h]
  · simp [exec, execSetBits, h]

/-! ### A vector (R161, R163, R181) -/

theorem State.vectorRange_unwritten {B : Nat} (h : s.offset = none ∨ s.count = none) :
    s.vectorRange B = .error (.raise .uninitializedOperand) := by
  cases ho : s.offset with
  | none => simp [State.vectorRange, ho]
  | some off =>
    have hc : s.count = none := by simpa [ho] using h
    simp [State.vectorRange, ho, hc]

theorem State.vectorRange_badCount {B : Nat} (ho : s.offset = some off) (hc : s.count = some cnt)
    (h : cnt.toInt < 0) : s.vectorRange B = .error (.raise .badCount) := by
  simp [State.vectorRange, ho, hc, vectorCount_bad h]

theorem State.vectorRange_outOfStore {B : Nat} (ho : s.offset = some off) (hc : s.count = some cnt)
    (hn : 0 ≤ cnt.toInt) (h : off.toInt < 0 ∨ (s.bufLen : Int) < off.toInt + cnt.toInt * B) :
    s.vectorRange B = .error (.raise .storeOutOfBounds) := by
  obtain ⟨n, hn⟩ := Int.eq_ofNat_of_zero_le hn
  have hbad : off.toInt < 0 ∨ (s.bufLen : Int) < off.toInt + (n * B : Nat) := by
    rwa [hn, ← Nat.cast_mul] at h
  simp [State.vectorRange, ho, hc, vectorCount_ok hn, storeRange_bad hbad]

/-- The range of the store passes, as numbers and not as registers. -/
theorem storeRange_of_le {B n k : Nat} (hk : off.toInt = (k : Int)) (hn : cnt.toInt = (n : Int))
    (h : off.toInt + cnt.toInt * B ≤ (s.bufLen : Int)) : k + n * B ≤ s.bufLen := by
  rw [hk, hn] at h
  exact_mod_cast h

theorem State.vectorRange_outOfVbuf {B : Nat} (ho : s.offset = some off) (hc : s.count = some cnt)
    (hn : 0 ≤ cnt.toInt) (hk : 0 ≤ off.toInt) (hle : off.toInt + cnt.toInt * B ≤ (s.bufLen : Int))
    (h : (s.vbuf.length : Int) < cnt.toInt) : s.vectorRange B = .error (.raise .vbufOutOfBounds) := by
  obtain ⟨n, hn⟩ := Int.eq_ofNat_of_zero_le hn
  obtain ⟨k, hk⟩ := Int.eq_ofNat_of_zero_le hk
  simp [State.vectorRange, ho, hc, vectorCount_ok hn, storeRange_ok hk (storeRange_of_le hk hn hle),
    State.vbufRange_bad (s := s) (n := n) (by omega)]

/-- R163 (5), R181 (5): the last check, made by the commands that read VBUF. -/
theorem exec_of_unwritten_entry {i : Instr} {B j : Nat} (hi : VectorCommand i B)
    (hwrite : i ∈ [Instr.writeU16Le, Instr.writeU16Be, Instr.writeU32Le, Instr.writeU32Be, Instr.writeU64Le,
      Instr.writeU64Be, Instr.writeBytes])
    (ho : s.offset = some off) (hc : s.count = some cnt) (hn : 0 ≤ cnt.toInt) (hk : 0 ≤ off.toInt)
    (hle : off.toInt + cnt.toInt * B ≤ (s.bufLen : Int)) (hv : cnt.toInt ≤ (s.vbuf.length : Int))
    (hj : (j : Int) < cnt.toInt) (h : s.vbuf[j]? = some none) :
    exec i s = .next (s.takeFault .uninitializedOperand) := by
  obtain ⟨n, hn⟩ := Int.eq_ofNat_of_zero_le hn
  obtain ⟨k, hk⟩ := Int.eq_ofNat_of_zero_le hk
  have hready : s.VectorReady B k n := ⟨off, cnt, ho, hc, hk, hn, storeRange_of_le hk hn hle, by omega⟩
  have hentry := State.vectorOperand_unwritten (s := s) (n := n) (by omega) (by omega) h
  cases hi with
  | read w e => cases w <;> cases e <;> simp [readCommand] at hwrite
  | write w e => simp [exec_writeCommand, State.writeVector, State.vectorRange_ready hready, hentry]
  | writeBytes => simp [exec, execWriteBytes, State.vectorRange_ready hready, hentry]

end Checks

/-- Settles O21: the two checks on one bit. -/
theorem singleBitCommandsCheckInOrder : Obligations.SingleBitCommandsCheckInOrder :=
  fun _ _ hi => ⟨fun h => exec_of_bitOperand hi (State.bitOperand_unwritten h),
    fun _ ho h => exec_of_bitOperand hi (State.bitOperand_outOfBounds ho h)⟩

/-- Settles O20: the three checks on a bit field. -/
theorem fieldCommandsCheckInOrder : Obligations.FieldCommandsCheckInOrder := by
  intro s i third hi
  refine ⟨fun h => exec_of_fieldOperands hi (State.fieldOperands_unwritten h), ?_⟩
  rintro off cnt v ho hc rfl
  exact ⟨fun h => exec_of_fieldOperands hi (State.fieldOperands_badCount ho hc h),
    fun hn h64 h => exec_of_fieldOperands hi (State.fieldOperands_outOfBounds ho hc hn h64 h)⟩

/-- The table of the commands with a vector operand. -/
theorem vectorCommand_of_mem {i : Instr} {B : Nat}
    (h : (i, B) ∈ [(Instr.readU16Le, 2), (Instr.readU16Be, 2), (Instr.readU32Le, 4), (Instr.readU32Be, 4),
      (Instr.readU64Le, 8), (Instr.readU64Be, 8), (Instr.writeU16Le, 2), (Instr.writeU16Be, 2), (Instr.writeU32Le, 4),
      (Instr.writeU32Be, 4), (Instr.writeU64Le, 8), (Instr.writeU64Be, 8), (Instr.writeBytes, 1)]) :
    VectorCommand i B := by
  obtain ⟨w, e, hrow⟩ | h := exists_width_order_or_mem (fun w e => (readCommand w e, w.bytes)) h
  · cases hrow
    exact .read w e
  · obtain ⟨w, e, rfl, rfl⟩ | ⟨rfl, rfl⟩ := exists_writeCommand_of_mem h
    · exact .write w e
    · exact .writeBytes

/-- Settles O22: the four checks of `vectorRange`, and the check on the entries. -/
theorem vectorCommandsCheckInOrder : Obligations.VectorCommandsCheckInOrder := by
  intro s i B hmem
  have hi := vectorCommand_of_mem hmem
  refine ⟨fun h => hi.exec_of_vectorRange (State.vectorRange_unwritten h), fun off cnt ho hc => ⟨?_, ?_, ?_, ?_⟩⟩
  · exact fun h => hi.exec_of_vectorRange (State.vectorRange_badCount ho hc h)
  · exact fun hn h => hi.exec_of_vectorRange (State.vectorRange_outOfStore ho hc hn h)
  · exact fun hn hk hle h => hi.exec_of_vectorRange (State.vectorRange_outOfVbuf ho hc hn hk hle h)
  · rintro hwrite hn hk hle hv ⟨j, hj, h⟩
    exact exec_of_unwritten_entry hi hwrite ho hc hn hk hle hv hj h

end Sys2Proof.Machine

/-! PROOFS. READ_BITS and SET_BITS (R110 to R119): the field read, the field written, and one after the other. -/

namespace Sys2Proof.Machine

/-! ### READ_BITS -/

/-- Settles O24: `execReadBits_ready`, whose value is taken mod 2^64. -/
theorem readBitsAccumulatesTheField : Obligations.ReadBitsAccumulatesTheField :=
  fun _ _ _ _ h hv => ⟨_, execReadBits_ready h hv, BitVec.toNat_ofNat ..⟩

/-- R113 (c): 64 rounds of the shift push every old bit out. -/
theorem ofNat_mul_two_pow_64_add (x y : Nat) : BitVec.ofNat 64 (x * 2 ^ 64 + y) = BitVec.ofNat 64 y :=
  BitVec.eq_of_toNat_eq (by rw [BitVec.toNat_ofNat, BitVec.toNat_ofNat, Nat.mul_add_mod'])

/-- Settles O25: both results are the field alone. -/
theorem readBitsOf64ForgetsTheOldAcc : Obligations.ReadBitsOf64ForgetsTheOldAcc := by
  intro s k acc acc' h
  have hres (v : Word) :
      exec .readBits { s with acc := some v } = .next (s.setAcc (BitVec.ofNat 64 (s.fieldAt k 64))) := by
    rw [← ofNat_mul_two_pow_64_add v.toNat]
    exact execReadBits_ready (s := { s with acc := some v }) h rfl
  rw [hres, hres]

/-! ### SET_BITS -/

/-- Settles O26: `execSetBits_ready`, and every bit after its loop. -/
theorem setBitsWritesTheField : Obligations.SetBitsWritesTheField := by
  intro s k n data h hv
  refine ⟨_, execSetBits_ready h hv, rfl, fun i hi => ?inside, fun k' hk' => ?outside⟩
  case inside => rw [State.bitAt_writeField, if_pos (by omega), Nat.add_sub_cancel_left]
  case outside => rw [State.bitAt_writeField, if_neg (by omega)]

/-- R117: SET_BITS's loop reads the low `n` bits of DATA alone. -/
theorem Memory.writeField_congr (m : Memory) (k : Nat) {n : Nat} {d d' : Word}
    (h : ∀ i < n, d.getLsbD i = d'.getLsbD i) : Memory.writeField m k n d = Memory.writeField m k n d' := by
  induction n generalizing m k with
  | zero => rfl
  | succ n ih => rw [Memory.writeField, Memory.writeField, h n (by omega), ih _ _ fun i hi => h i (by omega)]

theorem getLsbD_eq_of_mod {n : Nat} {d d' : Word} (h : d.toNat % 2 ^ n = d'.toNat % 2 ^ n) {i : Nat} (hi : i < n) :
    d.getLsbD i = d'.getLsbD i := by
  have hbit := congrArg (Nat.testBit · i) h
  simpa [Nat.testBit_mod_two_pow, hi, BitVec.testBit_toNat] using hbit

/-- Settles O27: the two runs write the same memory. -/
theorem setBitsIgnoresUpperData : Obligations.SetBitsIgnoresUpperData := by
  intro s t k n d d' h hd ht
  have hmem := Memory.writeField_congr s.mem k fun i hi => getLsbD_eq_of_mod hd hi
  have hd : exec .setBits { s with data := some d } = .next _ :=
    execSetBits_ready (s := { s with data := some d }) h rfl
  have hd' : exec .setBits { s with data := some d' } = .next _ :=
    execSetBits_ready (s := { s with data := some d' }) h rfl
  obtain rfl := Host.Outcome.next.inj (ht.symm.trans hd)
  rw [hd']
  exact congrArg (fun m => Host.Outcome.next { s with data := some d', mem := m }) hmem.symm

/-! ### The field as a number -/

/-- The bits of a number, weighted by their places, add up to its low bits. -/
theorem sum_bits (x n : Nat) : ∑ i ∈ Finset.range n, (x.testBit i).toNat * 2 ^ i = x % 2 ^ n := by
  induction n with
  | zero => simp [Nat.mod_one]
  | succ n ih => rw [Finset.sum_range_succ, ih, pow_succ, Nat.mod_mul, Nat.toNat_testBit, mul_comm (2 ^ n)]

/-- R62: a field whose bits are those of `x`, most significant first, is the low `n` bits of `x`. -/
theorem State.fieldAt_eq_mod {s : State} {k n x : Nat} (h : ∀ i < n, s.bitAt (k + i) = x.testBit (n - 1 - i)) :
    s.fieldAt k n = x % 2 ^ n := by
  rw [← sum_bits, ← Finset.sum_range_reflect, State.fieldAt]
  exact Finset.sum_congr rfl fun i hi => by rw [h i (Finset.mem_range.mp hi)]

/-- Settles O28: SET_BITS leaves the bits of DATA in the field, and READ_BITS from ACC = 0 gives the field's value. -/
theorem bitFieldRoundTrip : Obligations.BitFieldRoundTrip := by
  intro s k n data h hv
  obtain ⟨t, ht, hframe, hinside, -⟩ := setBitsWritesTheField s k n data h hv
  have hready : State.FieldReady { t with acc := some 0#64 } k n := by
    rw [hframe]
    exact h
  have hfield : t.fieldAt k n = data.toNat % 2 ^ n := State.fieldAt_eq_mod hinside
  refine ⟨t, ht, (execReadBits_ready hready rfl).trans ?_⟩
  rw [BitVec.toNat_zero, Nat.zero_mul, Nat.zero_add, ← hfield]
  rfl

end Sys2Proof.Machine

/-! PROOFS. The commands on one bit (R120 to R134) and on the whole store (R135 to R149). -/

namespace Sys2Proof.Machine

/-- Settles O29: `execReadBit_ready`, for both values of the bit. -/
theorem readBitReplacesAcc : Obligations.ReadBitReplacesAcc := by
  intro s k h
  have hbit : (BitVec.ofBool (s.bitAt k)).setWidth 64 = if s.bitAt k then 1#64 else 0#64 := by
    cases s.bitAt k <;> rfl
  rw [← hbit]
  exact execReadBit_ready h

/-- R12: what SET_BIT and CLEAR_BIT leave in the store. -/
theorem State.bitAt_setMem_writeBit (s : State) (k : Nat) (v : Bool) :
    (s.setMem (Memory.writeBit s.mem k v)).bitAt k = v ∧
      ∀ k', k' ≠ k → (s.setMem (Memory.writeBit s.mem k v)).bitAt k' = s.bitAt k' :=
  ⟨(s.bitAt_writeBit k k v).trans (if_pos rfl), fun k' hne => (s.bitAt_writeBit k k' v).trans (if_neg hne)⟩

/-- Settles O30: one bit written, with 1 and with 0. -/
theorem setBitAndClearBitWriteOneBit : Obligations.SetBitAndClearBitWriteOneBit :=
  fun s k h => ⟨⟨_, execSetBit_ready h, rfl, s.bitAt_setMem_writeBit k true⟩,
    ⟨_, execClearBit_ready h, rfl, s.bitAt_setMem_writeBit k false⟩⟩

/-- A command that maps the store by `f` does so to every byte, and changes nothing else. -/
theorem exec_mapStore {i : Instr} {f : Byte → Byte} {s : State} (hi : exec i s = .next (s.mapStore f)) :
    ∃ t, exec i s = .next t ∧ t = { s with mem := t.mem } ∧ (∀ a < s.bufLen, t.byteAt a = f (s.byteAt a)) ∧
      ∀ a, s.bufLen ≤ a → t.byteAt a = s.byteAt a :=
  ⟨_, hi, rfl, fun _ => State.byteAt_mapStore_inside f, fun _ => State.byteAt_mapStore_outside f⟩

/-- Settles O31: the three commands map the store by their function. -/
theorem wholeBufferCommands : Obligations.WholeBufferCommands :=
  fun s => ⟨exec_mapStore (exec_clearAllBits_eq_mapStore s), exec_mapStore (exec_setAllBits_eq_mapStore s),
    exec_mapStore (exec_flipAllBits_eq_mapStore s)⟩

/-- Two states that differ in memory alone are equal when both memories are canonical and read alike. -/
theorem State.setMem_eq {s : State} {m m' : Memory} (h : Memory.wf m = true) (h' : Memory.wf m' = true)
    (hr : ∀ a, Memory.read m a = Memory.read m' a) : s.setMem m = s.setMem m' :=
  congrArg s.setMem (Memory.ext h h' hr)

theorem Memory.wf_mapBelow {m : Memory} (h : Memory.wf m = true) (f : Byte → Byte) (n : Nat) :
    Memory.wf (Memory.mapBelow f n m) = true :=
  (Memory.mapBelow_reaches f m le_rfl).wf h

/-- R148 (b): mapping the store twice by a function that undoes itself restores the state. -/
theorem State.mapStore_mapStore_of_involutive {s : State} {f : Byte → Byte} (hwf : Memory.wf s.mem = true)
    (hf : ∀ b, f (f b) = b) : (s.mapStore f).mapStore f = s := by
  refine State.setMem_eq (s := s) (Memory.wf_mapBelow (Memory.wf_mapBelow hwf f _) f _) hwf fun a => ?_
  rw [Memory.read_mapBelow, State.mapStore, State.setMem_bufLen, State.setMem_mem, Memory.read_mapBelow]
  split
  · exact hf _
  · rfl

/-- Settles O32: the complement undoes itself. -/
theorem flipAllBitsIsItsOwnInverse : Obligations.FlipAllBitsIsItsOwnInverse := by
  intro s hwf
  refine ⟨_, exec_flipAllBits_eq_mapStore s, ?_⟩
  rw [exec_flipAllBits_eq_mapStore, State.mapStore_mapStore_of_involutive hwf fun b => BitVec.not_not]

end Sys2Proof.Machine

/-! PROOFS. The endian_converter_mux (R150 to R155): the bytes of ENC, DEC as a sum, and the laws between them. -/

namespace Sys2Proof.Machine

theorem Width.bytes_le (w : Width) : w.bytes ≤ 8 := by cases w <;> decide

/-- R150: byte `i` of ENC, as a number. -/
theorem enc_getD_toNat {w : Width} {e : ByteOrder} {v : Word} {i : Nat} (h : i < w.bytes) :
    ((enc w e v).getD i 0#8).toNat = v.toNat / 2 ^ (8 * lane w e i) % 256 := by
  rw [enc_getD h, BitVec.extractLsb'_toNat, Nat.shiftRight_eq_div_pow]

/-- Settles O33: ENC byte by byte, and DEC as `dec_eq_sum` with its bound. -/
theorem muxEncodesAndDecodesByLane : Obligations.MuxEncodesAndDecodesByLane := by
  intro w B hmem
  obtain ⟨w, hrow⟩ := exists_width_of_mem (fun w => (w, w.bytes)) hmem
  cases hrow
  refine ⟨fun v => ⟨enc_length w .le v, enc_length w .be v, fun i hi => ⟨?_, enc_getD_toNat hi, enc_getD_toNat hi⟩⟩,
    fun bs _ => ⟨dec_eq_sum w .le bs, dec_eq_sum w .be bs, dec_lt w .le bs, dec_lt w .be bs⟩⟩
  have hbytes := w.bytes_le
  omega

/-! ### ENC undoes DEC -/

/-- A digit of a number written in base 256, by induction on the number of digits, least significant first. -/
theorem sum_bytes_digit (g : Nat → Byte) {n l : Nat} (h : l < n) :
    (∑ i ∈ Finset.range n, (g i).toNat * 2 ^ (8 * i)) / 2 ^ (8 * l) % 256 = (g l).toNat := by
  induction n generalizing g l with
  | zero => omega
  | succ n ih =>
    have hsplit : ∑ i ∈ Finset.range (n + 1), (g i).toNat * 2 ^ (8 * i) =
        256 * ∑ i ∈ Finset.range n, (g (i + 1)).toNat * 2 ^ (8 * i) + (g 0).toNat := by
      rw [Finset.sum_range_succ', Finset.mul_sum, Nat.mul_zero, pow_zero, Nat.mul_one]
      congr 1
      exact Finset.sum_congr rfl fun i _ => by ring
    have hbyte : (g 0).toNat < 256 := (g 0).isLt
    rw [hsplit]
    cases l with
    | zero => rw [Nat.mul_zero, pow_zero, Nat.div_one, Nat.mul_add_mod, Nat.mod_eq_of_lt hbyte]
    | succ l =>
      have hpow : (2 : Nat) ^ (8 * (l + 1)) = 256 * 2 ^ (8 * l) := by ring
      rw [hpow, ← Nat.div_div_eq_div_mul, Nat.mul_add_div (by decide), Nat.div_eq_of_lt hbyte, Nat.add_zero]
      exact ih (fun i => g (i + 1)) (by omega)

/-- R151: DEC as a number in base 256, least significant byte first. -/
theorem dec_eq_sum_lane (w : Width) (e : ByteOrder) (bs : List Byte) :
    dec w e bs = ∑ i ∈ Finset.range w.bytes, (bs.getD (lane w e i) 0#8).toNat * 2 ^ (8 * i) := by
  rw [dec_eq_sum, ← sum_lane w e]
  exact Finset.sum_congr rfl fun i hi => by rw [lane_lane (Finset.mem_range.mp hi)]

/-- R151: DEC fits in a word. -/
theorem toNat_ofNat_dec (w : Width) (e : ByteOrder) (bs : List Byte) :
    (BitVec.ofNat 64 (dec w e bs)).toNat = dec w e bs := by
  have hbits : w.bits ≤ 64 := Nat.mul_le_mul_left 8 w.bytes_le
  exact Nat.mod_eq_of_lt ((dec_lt w e bs).trans_le (Nat.pow_le_pow_right (by decide) hbits))

/-- Two lists of W/8 bytes that agree at every place are the same. -/
theorem bytes_ext {w : Width} {bs bs' : List Byte} (h : bs.length = w.bytes) (h' : bs'.length = w.bytes)
    (hb : ∀ i < w.bytes, bs.getD i 0#8 = bs'.getD i 0#8) : bs = bs' := by
  refine List.ext_getElem (h.trans h'.symm) fun i hi hi' => ?_
  have hbyte := hb i (h ▸ hi)
  rwa [List.getD_eq_getElem _ _ hi, List.getD_eq_getElem _ _ hi'] at hbyte

/-- R153 (b). -/
theorem enc_dec {w : Width} {e : ByteOrder} {bs : List Byte} (h : bs.length = w.bytes) :
    enc w e (BitVec.ofNat 64 (dec w e bs)) = bs := by
  refine bytes_ext (enc_length ..) h fun i hi => BitVec.eq_of_toNat_eq ?_
  rw [enc_getD_toNat hi, toNat_ofNat_dec, dec_eq_sum_lane,
    sum_bytes_digit (fun i => bs.getD (lane w e i) 0#8) (lane_lt hi), lane_lane hi]

/-! ### The two byte orders -/

theorem getD_reverse {w : Width} {bs : List Byte} (h : bs.length = w.bytes) {i : Nat} (hi : i < w.bytes) :
    bs.reverse.getD i 0#8 = bs.getD (lane w .be i) 0#8 := by
  rw [List.getD_eq_getElem?_getD, List.getD_eq_getElem?_getD, List.getElem?_reverse (h ▸ hi), h, lane]

/-- R153 (c). -/
theorem enc_be_eq_reverse (w : Width) (v : Word) : enc w .be v = (enc w .le v).reverse := by
  refine bytes_ext (enc_length ..) (by simp) fun i hi => ?_
  rw [getD_reverse (enc_length ..) hi, enc_getD hi, enc_getD (lane_lt hi)]
  rfl

/-- R153 (d). -/
theorem dec_be_eq_dec_le_reverse {w : Width} {bs : List Byte} (h : bs.length = w.bytes) :
    dec w .be bs = dec w .le bs.reverse := by
  rw [dec_eq_sum_lane, dec_eq_sum_lane]
  exact Finset.sum_congr rfl fun i hi => by rw [← getD_reverse h (Finset.mem_range.mp hi)]; rfl

/-- Settles O34: the four laws in order. -/
theorem muxLaws : Obligations.MuxLaws :=
  fun w e => ⟨fun v hv => (dec_enc w e v).trans (Nat.mod_eq_of_lt hv), fun _ => enc_dec, enc_be_eq_reverse w,
    fun _ => dec_be_eq_dec_le_reverse⟩

/-- Written in one order and read in the other, the bytes are turned, whichever order comes first (R64 (c)). -/
theorem dec_le_enc_be (w : Width) (v : Word) : dec w .le (enc w .be v) = dec w .be (enc w .le v) := by
  rw [enc_be_eq_reverse, dec_be_eq_dec_le_reverse (enc_length ..)]

end Sys2Proof.Machine

/-! PROOFS. The integer reads and writes and WRITE_BYTES complete (R160 to R184), and the round trip (R178). -/

namespace Sys2Proof.Machine

/-! ### VBUF replaced, as an integer read does -/

def State.setVbuf (s : State) (vb : List (Option Word)) : State := { s with vbuf := vb }

@[simp] theorem State.setVbuf_vbuf (s : State) (vb : List (Option Word)) : (s.setVbuf vb).vbuf = vb := rfl

@[simp] theorem State.setVbuf_setVbuf (s : State) (vb vb' : List (Option Word)) :
    (s.setVbuf vb).setVbuf vb' = s.setVbuf vb' := rfl

/-- R67: the checks see VBUF by its length alone. -/
theorem State.VectorReady.setVbuf {s : State} {B a n : Nat} (h : s.VectorReady B a n) {vb : List (Option Word)}
    (hvb : vb.length = s.vbuf.length) : (s.setVbuf vb).VectorReady B a n := by
  obtain ⟨off, cnt, ho, hc, ha, hn, hle, hv⟩ := h
  exact ⟨off, cnt, ho, hc, ha, hn, hle, hvb ▸ hv⟩

/-- R162: the elements read are those of the store. -/
theorem State.vbufLoaded_congr {s s' : State} (hmem : s'.mem = s.mem) : s'.vbufLoaded = s.vbufLoaded := by
  funext w e vb a j n
  induction n generalizing vb a j with
  | zero => rfl
  | succ n ih => simp only [State.vbufLoaded, ih, State.elementAt, State.byteAt_congr hmem]

@[simp] theorem State.vbufLoaded_setVbuf (s : State) (vb : List (Option Word)) :
    (s.setVbuf vb).vbufLoaded = s.vbufLoaded :=
  State.vbufLoaded_congr rfl

/-! ### The reads -/

section Reads

variable {s : State} {w : Width} {a n : Nat}

theorem exec_readCommand_ready (e : ByteOrder) (h : s.VectorReady w.bytes a n) :
    exec (readCommand w e) s = .next (s.setVbuf (s.vbufLoaded w e s.vbuf a 0 n)) :=
  (exec_readCommand w e s).trans (State.readVector_ready h)

/-- R162: what a read leaves in each entry. -/
theorem exec_readCommand_loads (e : ByteOrder) (h : s.VectorReady w.bytes a n) :
    ∃ t, exec (readCommand w e) s = .next t ∧ t = { s with vbuf := t.vbuf } ∧ t.vbuf.length = s.vbuf.length ∧
      (∀ j < n, t.vbuf[j]? = some (some (s.elementAt w e (a + j * w.bytes)))) ∧
      ∀ j, n ≤ j → t.vbuf[j]? = s.vbuf[j]? := by
  have hentry := fun j => s.vbufLoaded_getElem? w e s.vbuf a 0 n j (by rw [Nat.zero_add]; exact h.count_le)
  refine ⟨_, exec_readCommand_ready e h, rfl, s.vbufLoaded_length w e s.vbuf a 0 n, fun j hj => ?_, fun j hj => ?_⟩
  · rw [State.setVbuf_vbuf, hentry, if_pos (by omega), Nat.sub_zero]
  · rw [State.setVbuf_vbuf, hentry, if_neg (by omega)]

end Reads

theorem State.elementAt_toNat_le (s : State) (w : Width) (a : Nat) :
    (s.elementAt w .le a).toNat = s.leValue a w.bytes :=
  (toNat_ofNat_dec ..).trans (dec_memory_le s w a)

theorem State.elementAt_toNat_be (s : State) (w : Width) (a : Nat) :
    (s.elementAt w .be a).toNat = s.beValue a w.bytes :=
  (toNat_ofNat_dec ..).trans (dec_memory_be s w a)

/-- Settles O35: the entries loaded, each the little-endian value of its bytes. -/
theorem littleEndianReads : Obligations.LittleEndianReads := by
  intro i B hmem s a n h
  obtain ⟨w, hrow⟩ := exists_width_of_mem (fun w => (readCommand w .le, w.bytes)) hmem
  cases hrow
  obtain ⟨t, ht, hframe, hlength, hinside, houtside⟩ := exec_readCommand_loads .le h
  exact ⟨t, ht, hframe, hlength, fun j hj => ⟨_, hinside j hj, s.elementAt_toNat_le w _⟩, houtside⟩

/-- Settles O36: the entries loaded, each the big-endian value of its bytes. -/
theorem bigEndianReads : Obligations.BigEndianReads := by
  intro i B hmem s a n h
  obtain ⟨w, hrow⟩ := exists_width_of_mem (fun w => (readCommand w .be, w.bytes)) hmem
  cases hrow
  obtain ⟨t, ht, hframe, hlength, hinside, houtside⟩ := exec_readCommand_loads .be h
  exact ⟨t, ht, hframe, hlength, fun j hj => ⟨_, hinside j hj, s.elementAt_toNat_be w _⟩, houtside⟩

/-! ### The writes -/

section Writes

variable {s : State} {w : Width} {a : Nat} {vs : List Word}

theorem exec_writeCommand_ready (e : ByteOrder) (h : s.VectorReady w.bytes a vs.length) (hv : s.EntriesHold vs) :
    exec (writeCommand w e) s = .next (s.setMem (Memory.storeVector s.mem w e a vs)) :=
  (exec_writeCommand w e s).trans (State.writeVector_ready h hv)

/-- R164: what a write leaves in each byte. -/
theorem exec_writeCommand_stores (e : ByteOrder) (h : s.VectorReady w.bytes a vs.length) (hv : s.EntriesHold vs) :
    ∃ t, exec (writeCommand w e) s = .next t ∧ t = { s with mem := t.mem } ∧
      (∀ (j : Nat) (v : Word), vs[j]? = some v →
        ∀ b < w.bytes, t.byteAt (a + j * w.bytes + b) = v.extractLsb' (8 * lane w e b) 8) ∧
      ∀ a', a' < a ∨ a + vs.length * w.bytes ≤ a' → t.byteAt a' = s.byteAt a' := by
  refine ⟨_, exec_writeCommand_ready e h hv, rfl, fun j v hj b hb => ?_, fun a' ha' => ?_⟩
  · obtain ⟨hlt, rfl⟩ := List.getElem?_eq_some_iff.mp hj
    exact Memory.read_storeVector_inside s.mem w e a vs hlt hb
  · exact Memory.read_storeVector_outside s.mem w e a vs ha'

end Writes

/-- Settles O37: the lane of byte `b` is `b`. -/
theorem littleEndianWrites : Obligations.LittleEndianWrites := by
  intro i B hmem s a vs h hv
  obtain ⟨w, hrow⟩ := exists_width_of_mem (fun w => (writeCommand w .le, w.bytes)) hmem
  cases hrow
  exact exec_writeCommand_stores .le h hv

/-- Settles O38: the lane of byte `b` is `B-1-b`. -/
theorem bigEndianWrites : Obligations.BigEndianWrites := by
  intro i B hmem s a vs h hv
  obtain ⟨w, hrow⟩ := exists_width_of_mem (fun w => (writeCommand w .be, w.bytes)) hmem
  cases hrow
  exact exec_writeCommand_stores .be h hv

/-- Settles O39: `execWriteBytes_ready`, and every byte after one MemWrite. -/
theorem writeBytesCopiesTheLowBytes : Obligations.WriteBytesCopiesTheLowBytes := by
  intro s a vs h hv
  refine ⟨_, execWriteBytes_ready h hv, rfl, fun j v hj => ?inside, fun a' ha' => ?outside⟩
  case inside =>
    obtain ⟨hlt, rfl⟩ := List.getElem?_eq_some_iff.mp hj
    rw [State.byteAt_setMem, Memory.read_writeBytes, List.length_map, if_pos (by omega), Nat.add_sub_cancel_left]
    simp [hlt, BitVec.setWidth_eq_extractLsb']
  case outside =>
    rw [State.byteAt_setMem, Memory.read_writeBytes, List.length_map, if_neg (by omega)]
    rfl

/-! ### A write and then a read -/

theorem enc_eq_map (w : Width) (e : ByteOrder) (v : Word) :
    enc w e v = (List.range w.bytes).map fun i => v.extractLsb' (8 * lane w e i) 8 := by
  refine bytes_ext (enc_length ..) (by simp) fun i hi => ?_
  rw [enc_getD hi]
  simp [hi]

/-- R179: an element written in the order `e` and read in the order `e'`. -/
theorem State.elementAt_storeVector (s : State) (w : Width) (e e' : ByteOrder) (a : Nat) {vs : List Word} {j : Nat}
    (hj : j < vs.length) :
    (s.setMem (Memory.storeVector s.mem w e a vs)).elementAt w e' (a + j * w.bytes) =
      BitVec.ofNat 64 (dec w e' (enc w e vs[j])) := by
  rw [State.elementAt, enc_eq_map]
  congr 2
  exact List.map_congr_left fun i hi => Memory.read_storeVector_inside s.mem w e a vs hj (List.mem_range.mp hi)

/-- R178: the entries that a read gives back after a write of the same width and order. -/
theorem State.vbufLoaded_storeVector {s : State} {w : Width} {a : Nat} {vs : List Word} (e : ByteOrder)
    (hn : vs.length ≤ s.vbuf.length) :
    (s.setMem (Memory.storeVector s.mem w e a vs)).vbufLoaded w e s.vbuf a 0 vs.length =
      vs.map (fun v => some (BitVec.ofNat 64 (v.toNat % 2 ^ (8 * w.bytes)))) ++ s.vbuf.drop vs.length := by
  refine List.ext_getElem? fun j => ?_
  rw [State.vbufLoaded_getElem? _ _ _ _ _ _ _ _ (by omega)]
  by_cases hj : j < vs.length
  · rw [if_pos (by omega), Nat.sub_zero, s.elementAt_storeVector w e e a hj, dec_enc, Width.bits,
      List.getElem?_append_left (by simpa using hj)]
    simp [hj]
  · rw [if_neg (by omega), List.getElem?_append_right (by simpa using hj), List.length_map, List.getElem?_drop,
      Nat.add_sub_cancel' (by omega)]

/-- R178: values that fit in W bits are given back as they were. -/
theorem State.EntriesHold.map_mod_append_drop {s : State} {vs : List Word} {n : Nat} (hv : s.EntriesHold vs)
    (hlt : ∀ v ∈ vs, v.toNat < 2 ^ n) :
    vs.map (fun v => some (BitVec.ofNat 64 (v.toNat % 2 ^ n))) ++ s.vbuf.drop vs.length = s.vbuf := by
  have hmap : vs.map (fun v => some (BitVec.ofNat 64 (v.toNat % 2 ^ n))) = vs.map some :=
    List.map_congr_left fun v hmem => by rw [Nat.mod_eq_of_lt (hlt v hmem), BitVec.ofNat_toNat, BitVec.setWidth_eq]
  rw [hmap, ← hv, List.take_append_drop]

/-- Settles O40: the read loads `vbufLoaded_storeVector`, which is VBUF itself for values that fit. -/
theorem integerRoundTrip : Obligations.IntegerRoundTrip := by
  intro wr rd B hmem s a vs h hv
  obtain ⟨w, e, hrow⟩ := exists_width_order_of_mem (fun w e => (writeCommand w e, readCommand w e, w.bytes)) hmem
  cases hrow
  have hread := exec_readCommand_ready (s := s.setMem (Memory.storeVector s.mem w e a vs)) e h
  rw [State.setMem_vbuf, State.vbufLoaded_storeVector e h.count_le] at hread
  refine ⟨_, exec_writeCommand_ready e h hv, hread, fun hlt => ?_⟩
  rw [hread, hv.map_mod_append_drop hlt]
  rfl

end Sys2Proof.Machine

/-! PROOFS. The three views of one element (R64): as bits, little-endian and big-endian. -/

namespace Sys2Proof.Machine

/-! ### Bytes as a bit field -/

/-- A field is its first `m` bits above its last `n`. -/
theorem State.fieldAt_add (s : State) (k m n : Nat) :
    s.fieldAt k (m + n) = s.fieldAt k m * 2 ^ n + s.fieldAt (k + m) n := by
  induction m generalizing k with
  | zero => simp [State.fieldAt]
  | succ m ih =>
    rw [show m + 1 + n = m + n + 1 by omega, State.fieldAt_succ, ih, State.fieldAt_succ,
      show k + (m + 1) = k + 1 + m by omega]
    ring

/-- R61: eight bits from a byte boundary are that byte. -/
theorem State.fieldAt_byte (s : State) (a : Nat) : s.fieldAt (8 * a) 8 = (s.byteAt a).toNat := by
  have hbits : s.fieldAt (8 * a) 8 = (s.byteAt a).toNat % 2 ^ 8 := by
    refine State.fieldAt_eq_mod fun i hi => ?_
    rw [State.bitAt, show (8 * a + i) / 8 = a by omega, show 7 - (8 * a + i) % 8 = 8 - 1 - i by omega]
    rfl
  rw [hbits, Nat.mod_eq_of_lt (s.byteAt a).isLt]

theorem State.beValue_succ (s : State) (a n : Nat) :
    s.beValue a (n + 1) = (s.byteAt a).toNat * 2 ^ (8 * n) + s.beValue (a + 1) n := by
  rw [State.beValue, Finset.sum_range_succ', add_comm]
  congr 1
  refine Finset.sum_congr rfl fun i _ => ?_
  rw [show a + (i + 1) = a + 1 + i by omega, show n + 1 - 1 - (i + 1) = n - 1 - i by omega]

/-- R64 (a): bytes read as a bit field are their big-endian value. -/
theorem State.fieldAt_bytes (s : State) (a n : Nat) : s.fieldAt (8 * a) (8 * n) = s.beValue a n := by
  induction n generalizing a with
  | zero => rfl
  | succ n ih =>
    rw [show 8 * (n + 1) = 8 + 8 * n by omega, State.fieldAt_add, State.fieldAt_byte, State.beValue_succ, ← ih,
      show 8 * (a + 1) = 8 * a + 8 by omega]

/-! ### One element -/

theorem toInt_ofNat_of_lt {n : Nat} (h : n < 2 ^ 63) : (BitVec.ofNat 64 n).toInt = (n : Int) := by
  have hn : (BitVec.ofNat 64 n).toNat = n := Nat.mod_eq_of_lt (by omega)
  rw [BitVec.toInt_eq_toNat_of_lt (by omega), hn]

section Element

variable {s : State} {w : Width} {a : Nat} {v : Word}

/-- R64: an element written in the order `e`, read as bits. -/
theorem readBits_of_element (e : ByteOrder) (hlen : s.bufLen < 2 ^ 60) (h : s.VectorReady w.bytes a 1) {t : State}
    (ht : t = s.setMem (Memory.storeVector s.mem w e a [v])) :
    exec .readBits { t with
        offset := some (BitVec.ofNat 64 (8 * a)), count := some (BitVec.ofNat 64 (8 * w.bytes)), acc := some 0#64 } =
      .next { t with
        offset := some (BitVec.ofNat 64 (8 * a)), count := some (BitVec.ofNat 64 (8 * w.bytes)),
        acc := some (BitVec.ofNat 64 (dec w .be (enc w e v))) } := by
  have hbytes := w.bytes_le
  have hrange := h.range_le
  have hbuf : t.bufLen = s.bufLen := by rw [ht]; rfl
  have hready : State.FieldReady { t with
      offset := some (BitVec.ofNat 64 (8 * a)), count := some (BitVec.ofNat 64 (8 * w.bytes)), acc := some 0#64 }
      (8 * a) (8 * w.bytes) :=
    ⟨_, _, rfl, rfl, toInt_ofNat_of_lt (by omega), toInt_ofNat_of_lt (by omega), by omega, by
      change 8 * a + 8 * w.bytes ≤ 8 * t.bufLen
      omega⟩
  have hfield : t.fieldAt (8 * a) (8 * w.bytes) = dec w .be (enc w e v) := by
    have helement := s.elementAt_storeVector w e .be a (vs := [v]) (j := 0) Nat.one_pos
    rw [Nat.zero_mul, Nat.add_zero, ← ht] at helement
    rw [State.fieldAt_bytes, ← State.elementAt_toNat_be, helement, toNat_ofNat_dec]
    rfl
  refine (execReadBits_ready hready rfl).trans ?_
  rw [BitVec.toNat_zero, Nat.zero_mul, Nat.zero_add, ← hfield]
  rfl

/-- A read of one element fills the first entry. -/
theorem State.vbufLoaded_one (s : State) (w : Width) (e : ByteOrder) {vb : List (Option Word)} (a : Nat)
    (h : 1 ≤ vb.length) : s.vbufLoaded w e vb a 0 1 = some (s.elementAt w e a) :: vb.drop 1 := by
  cases vb with
  | nil => simp at h
  | cons x rest => rfl

/-- R64: an element written in the order `e`, read in the order `e'`. -/
theorem readCommand_of_element (e e' : ByteOrder) (h : s.VectorReady w.bytes a 1) {t : State}
    (ht : t = s.setMem (Memory.storeVector s.mem w e a [v])) :
    exec (readCommand w e') t =
      .next { t with vbuf := some (BitVec.ofNat 64 (dec w e' (enc w e v))) :: s.vbuf.drop 1 } := by
  have helement := s.elementAt_storeVector w e e' a (vs := [v]) (j := 0) Nat.one_pos
  rw [Nat.zero_mul, Nat.add_zero, ← ht] at helement
  have hready : t.VectorReady w.bytes a 1 := by rw [ht]; exact h
  have hvbuf : t.vbuf = s.vbuf := by rw [ht]; rfl
  rw [exec_readCommand_ready e' hready, State.vbufLoaded_one t w e' a hready.count_le, helement, hvbuf]
  rfl

end Element

/-- R64 (c): the bytes of the low W bits, turned. -/
theorem dec_be_enc_le_eq_sum (w : Width) (v : Word) :
    dec w .be (enc w .le v) =
      ∑ i ∈ Finset.range w.bytes, (v.extractLsb' (8 * i) 8).toNat * 2 ^ (8 * (w.bytes - 1 - i)) := by
  rw [dec_eq_sum]
  exact Finset.sum_congr rfl fun i hi => by rw [enc_getD (Finset.mem_range.mp hi)]; rfl

/-- Settles O41: each view of the element is DEC of its bytes in the order of the view. -/
theorem viewsOfOneElementAgree : Obligations.ViewsOfOneElementAgree := by
  intro wl wb rl rb B hmem s a v same turned hlen h hv hsame hturned
  obtain ⟨w, hrow⟩ := exists_width_of_mem
    (fun w => (writeCommand w .le, writeCommand w .be, readCommand w .le, readCommand w .be, w.bytes)) hmem
  cases hrow
  have hsame : same = BitVec.ofNat 64 (dec w .be (enc w .be v)) := by
    rw [dec_enc, Width.bits, ← hsame, BitVec.ofNat_toNat, BitVec.setWidth_eq]
  have hturned : turned = BitVec.ofNat 64 (dec w .be (enc w .le v)) := by
    rw [dec_be_enc_le_eq_sum, ← hturned, BitVec.ofNat_toNat, BitVec.setWidth_eq]
  refine ⟨⟨_, exec_writeCommand_ready .be h hv, ?_, ?_⟩, ⟨_, exec_writeCommand_ready .le h hv, ?_, ?_⟩⟩
  · rw [hsame]
    exact readBits_of_element .be hlen h rfl
  · rw [hturned, ← dec_le_enc_be]
    exact readCommand_of_element .be .le h rfl
  · rw [hturned]
    exact readBits_of_element .le hlen h rfl
  · rw [hturned]
    exact readCommand_of_element .le .be h rfl

end Sys2Proof.Machine

/-! PROOFS. The range a command alters (R69, C4): the one its operands give when its checks pass, and nothing when they
fail. -/

namespace Sys2Proof.Machine

/-! ### The integer commands and WRITE_BYTES -/

section Vector

variable {s t : State} {i : Instr} {B : Nat}

/-- R69: what a command that reads VBUF can do to the bytes of the store. -/
theorem exec_write_range (hi : (∃ w e, i = writeCommand w e ∧ B = w.bytes) ∨ (i = .writeBytes ∧ B = 1))
    (h : exec i s = .next t) :
    (∃ a n, s.VectorReady B a n ∧ ∀ a', a' < a ∨ a + n * B ≤ a' → t.byteAt a' = s.byteAt a') ∨ t.mem = s.mem := by
  obtain ⟨w, e, rfl, rfl⟩ | ⟨rfl, rfl⟩ := hi
  · obtain ⟨a, vs, hready, hv, -⟩ | ⟨c, -, hfault⟩ := s.writeVector_cases w e
    · obtain ⟨u, hu, -, -, houtside⟩ := exec_writeCommand_stores e hready hv
      obtain rfl := Host.Outcome.next.inj (h.symm.trans hu)
      exact .inl ⟨a, vs.length, hready, houtside⟩
    · obtain rfl := Host.Outcome.next.inj (h.symm.trans ((exec_writeCommand w e s).trans hfault))
      exact .inr rfl
  · obtain ⟨a, vs, hready, hv, -⟩ | ⟨c, -, hfault⟩ := execWriteBytes_cases s
    · obtain ⟨u, hu, -, -, houtside⟩ := writeBytesCopiesTheLowBytes s a vs hready hv
      obtain rfl := Host.Outcome.next.inj (h.symm.trans hu)
      exact .inl ⟨a, vs.length, hready, by rwa [Nat.mul_one]⟩
    · obtain rfl := Host.Outcome.next.inj (h.symm.trans hfault)
      exact .inr rfl

/-- R69: what an integer read can do to the entries of VBUF. -/
theorem exec_read_range {w : Width} {e : ByteOrder} (h : exec (readCommand w e) s = .next t) :
    (∃ a n, s.VectorReady w.bytes a n ∧ ∀ j, n ≤ j → t.vbuf[j]? = s.vbuf[j]?) ∨ t.vbuf = s.vbuf := by
  obtain ⟨a, n, hready, -⟩ | ⟨c, -, hfault⟩ := s.readVector_cases w e
  · obtain ⟨u, hu, -, -, -, houtside⟩ := exec_readCommand_loads e hready
    obtain rfl := Host.Outcome.next.inj (h.symm.trans hu)
    exact .inl ⟨a, n, hready, houtside⟩
  · obtain rfl := Host.Outcome.next.inj (h.symm.trans ((exec_readCommand w e s).trans hfault))
    exact .inr rfl

end Vector

/-- Settles O43: the range of `exec_write_range` and `exec_read_range` is the one OFFSET and COUNT give. -/
theorem vectorCommandsStayInTheirRange : Obligations.VectorCommandsStayInTheirRange := by
  intro i B s t h
  refine ⟨fun hmem => ?writes, fun hmem => ?reads⟩
  case writes =>
    obtain ⟨a, n, ⟨off, cnt, ho, hc, ha, hn, -⟩, houtside⟩ | hmem := exec_write_range (exists_writeCommand_of_mem hmem) h
    · refine ⟨fun hnone => by simp [ho, hc] at hnone, fun off' cnt' ho' hc' a' ha' => houtside a' ?_⟩
      obtain rfl := Option.some.inj (ho.symm.trans ho')
      obtain rfl := Option.some.inj (hc.symm.trans hc')
      rw [ha, hn] at ha'
      exact_mod_cast ha'
    · exact ⟨fun _ => State.byteAt_congr hmem, fun _ _ _ _ a' _ => State.byteAt_congr hmem a'⟩
  case reads =>
    obtain ⟨w, e, rfl⟩ := exists_readCommand hmem
    obtain ⟨a, n, ⟨off, cnt, ho, hc, ha, hn, -⟩, houtside⟩ | hvbuf := exec_read_range h
    · refine ⟨fun hnone => by simp [hc] at hnone, fun cnt' hc' j hj => houtside j ?_⟩
      obtain rfl := Option.some.inj (hc.symm.trans hc')
      omega
    · exact ⟨fun _ => hvbuf, fun _ _ j _ => by rw [hvbuf]⟩

/-! ### The bit commands -/

section Bits

variable {s t : State}

/-- R69: what SET_BITS can do to the bits of the store. -/
theorem exec_setBits_range (h : exec .setBits s = .next t) :
    (∃ k n, s.FieldReady k n ∧ ∀ k', k' < k ∨ k + n ≤ k' → t.bitAt k' = s.bitAt k') ∨ t.mem = s.mem := by
  obtain ⟨k, n, data, hready, hdata, -⟩ | ⟨c, -, hfault⟩ := execSetBits_cases s
  · obtain ⟨u, hu, -, -, houtside⟩ := setBitsWritesTheField s k n data hready hdata
    obtain rfl := Host.Outcome.next.inj (h.symm.trans hu)
    exact .inl ⟨k, n, hready, houtside⟩
  · obtain rfl := Host.Outcome.next.inj (h.symm.trans hfault)
    exact .inr rfl

/-- R69: what SET_BIT and CLEAR_BIT can do to the bits of the store. -/
theorem exec_oneBit_range (h : exec .setBit s = .next t ∨ exec .clearBit s = .next t) :
    (∃ k, s.BitReady k ∧ ∀ k', k' ≠ k → t.bitAt k' = s.bitAt k') ∨ t.mem = s.mem := by
  obtain ⟨k, hready, -⟩ | ⟨c, hc, herr⟩ := s.bitOperand_cases
  · obtain ⟨⟨u, hu, -, -, hset⟩, ⟨u', hu', -, -, hclear⟩⟩ := setBitAndClearBitWriteOneBit s k hready
    obtain h | h := h
    · obtain rfl := Host.Outcome.next.inj (h.symm.trans hu)
      exact .inl ⟨k, hready, hset⟩
    · obtain rfl := Host.Outcome.next.inj (h.symm.trans hu')
      exact .inl ⟨k, hready, hclear⟩
  · rw [exec_of_bitOperand (by simp) herr, exec_of_bitOperand (by simp) herr, or_self] at h
    obtain rfl := Host.Outcome.next.inj h
    exact .inr rfl

end Bits

/-- Settles O44: the ranges of `exec_setBits_range` and `exec_oneBit_range` are those OFFSET and COUNT give. -/
theorem bitCommandsStayInTheirRange : Obligations.BitCommandsStayInTheirRange := by
  intro s t
  refine ⟨fun h => ?field, fun h => ?oneBit⟩
  case field =>
    obtain ⟨k, n, ⟨off, cnt, ho, hc, hk, hn, -⟩, houtside⟩ | hmem := exec_setBits_range h
    · refine ⟨fun hnone => by simp [ho, hc] at hnone, fun off' cnt' ho' hc' k' hk' => houtside k' ?_⟩
      obtain rfl := Option.some.inj (ho.symm.trans ho')
      obtain rfl := Option.some.inj (hc.symm.trans hc')
      omega
    · exact ⟨fun _ => State.bitAt_congr hmem, fun _ _ _ _ k' _ => State.bitAt_congr hmem k'⟩
  case oneBit =>
    obtain ⟨k, ⟨off, ho, hk, -⟩, houtside⟩ | hmem := exec_oneBit_range h
    · refine ⟨fun hnone => by simp [ho] at hnone, fun off' ho' k' hk' => houtside k' ?_⟩
      obtain rfl := Option.some.inj (ho.symm.trans ho')
      omega
    · exact ⟨fun _ => State.bitAt_congr hmem, fun _ _ k' _ => State.bitAt_congr hmem k'⟩

end Sys2Proof.Machine

/-! PROOFS. Commands do not depend on what they do not read (R68): two states that agree on what a command reads end it
alike, with the same value put in the same place or the same fault. -/

namespace Sys2Proof.Machine

/-! ### Ending alike -/

/-- The command `i` ends alike in two states: it puts one value `x` in place in both, or records one fault in both. -/
def SameEffect {α : Type} (put : State → α → State) (i : Instr) (s s' : State) : Prop :=
  (∃ x, exec i s = .next (put s x) ∧ exec i s' = .next (put s' x)) ∨
    ∃ c, exec i s = .next (s.takeFault c) ∧ exec i s' = .next (s'.takeFault c)

section SameEffect

variable {α : Type} {put : State → α → State} {i : Instr} {s t : State}

/-- A change `g` of the state that the command does not see, and that is apart from what it writes, can be made before the
command or after it. -/
theorem SameEffect.commutes (g : State → State) (ht : exec i s = .next t) (h : SameEffect put i s (g s))
    (hput : ∀ x, put (g s) x = g (put s x) := by exact fun _ => rfl)
    (hfault : ∀ c, (g s).takeFault c = g (s.takeFault c) := by exact fun _ => rfl) :
    exec i (g s) = .next (g t) := by
  obtain ⟨x, hs, hg⟩ | ⟨c, hs, hg⟩ := h
  · obtain rfl := Host.Outcome.next.inj (ht.symm.trans hs)
    rw [hg, hput]
  · obtain rfl := Host.Outcome.next.inj (ht.symm.trans hs)
    rw [hg, hfault]

/-- A command that ends alike on the state it left changes nothing there. -/
theorem SameEffect.repeats (ht : exec i s = .next t) (h : SameEffect put i s t)
    (hput : ∀ x, put (put s x) x = put s x := by exact fun _ => rfl) : exec i t = .next t := by
  obtain ⟨x, hs, hagain⟩ | ⟨c, hs, hagain⟩ := h
  · obtain rfl := Host.Outcome.next.inj (ht.symm.trans hs)
    rw [hagain, hput]
  · obtain rfl := Host.Outcome.next.inj (ht.symm.trans hs)
    rw [hagain, State.takeFault_takeFault]

end SameEffect

/-! ### What each command reads -/

section Reads

variable {s s' : State}

/-- R111, R112: READ_BITS reads its operands and the store. -/
theorem readBits_sameEffect (hops : s'.fieldOperands s'.acc = s.fieldOperands s.acc) (hbuf : s'.bufLen = s.bufLen)
    (hmem : s'.mem = s.mem) : SameEffect State.setAcc .readBits s s' := by
  obtain ⟨k, n, v, hready, hv, hok⟩ | ⟨c, -, herr⟩ := s.fieldOperands_cases s.acc
  · have hle : k + n ≤ 8 * s'.bufLen := hbuf ▸ hready.range_le
    have hfield : s'.fieldAt k n = s.fieldAt k n := by simp only [State.fieldAt, State.bitAt_congr hmem]
    refine .inl ⟨_, execReadBits_ready hready hv, ?_⟩
    simp [exec, execReadBits, hops, hok, State.readField_inside hle, hfield]
  · exact .inr ⟨c, exec_of_fieldOperands (.inl ⟨rfl, rfl⟩) herr,
      exec_of_fieldOperands (.inl ⟨rfl, rfl⟩) (hops.trans herr)⟩

/-- R116, R117: SET_BITS reads its operands and the store. -/
theorem setBits_sameEffect (hops : s'.fieldOperands s'.data = s.fieldOperands s.data) (hbuf : s'.bufLen = s.bufLen)
    (hmem : s'.mem = s.mem) : SameEffect State.setMem .setBits s s' := by
  obtain ⟨k, n, v, hready, hv, hok⟩ | ⟨c, -, herr⟩ := s.fieldOperands_cases s.data
  · have hle : k + n ≤ 8 * s'.bufLen := hbuf ▸ hready.range_le
    refine .inl ⟨_, execSetBits_ready hready hv, ?_⟩
    simp [exec, execSetBits, hops, hok, State.writeField_inside hle, hmem]
  · exact .inr ⟨c, exec_of_fieldOperands (.inr ⟨rfl, rfl⟩) herr,
      exec_of_fieldOperands (.inr ⟨rfl, rfl⟩) (hops.trans herr)⟩

/-- R121, R122: READ_BIT reads OFFSET and the store. -/
theorem readBit_sameEffect (hops : s'.bitOperand = s.bitOperand) (hbuf : s'.bufLen = s.bufLen)
    (hmem : s'.mem = s.mem) : SameEffect State.setAcc .readBit s s' := by
  obtain ⟨k, hready, hok⟩ | ⟨c, -, herr⟩ := s.bitOperand_cases
  · have hlt : k < 8 * s'.bufLen := hbuf ▸ hready.offset_lt
    refine .inl ⟨_, execReadBit_ready hready, ?_⟩
    simp [exec, execReadBit, hops, hok, State.bitRead_inside hlt, State.bitAt_congr hmem]
  · exact .inr ⟨c, exec_of_bitOperand (by simp) herr, exec_of_bitOperand (by simp) (hops.trans herr)⟩

/-- R126, R127, R131, R132: SET_BIT and CLEAR_BIT read OFFSET and the store. -/
theorem writeBit_sameEffect {i : Instr} (hi : i = .setBit ∨ i = .clearBit) (hops : s'.bitOperand = s.bitOperand)
    (hbuf : s'.bufLen = s.bufLen) (hmem : s'.mem = s.mem) : SameEffect State.setMem i s s' := by
  obtain ⟨k, hready, hok⟩ | ⟨c, -, herr⟩ := s.bitOperand_cases
  · have hlt : k < 8 * s'.bufLen := hbuf ▸ hready.offset_lt
    obtain rfl | rfl := hi
    · refine .inl ⟨_, execSetBit_ready hready, ?_⟩
      simp [exec, execSetBit, hops, hok, State.bitWrite_inside hlt, hmem]
    · refine .inl ⟨_, execClearBit_ready hready, ?_⟩
      simp [exec, execClearBit, hops, hok, State.bitWrite_inside hlt, hmem]
  · have hone : i ∈ [Instr.readBit, .setBit, .clearBit] := by simpa using Or.inr hi
    exact .inr ⟨c, exec_of_bitOperand hone herr, exec_of_bitOperand hone (hops.trans herr)⟩

/-- The whole-buffer commands map the store by a function of their own. -/
theorem exists_exec_mapStore {i : Instr} (hi : i ∈ [Instr.clearAllBits, Instr.setAllBits, Instr.flipAllBits]) :
    ∃ f, ∀ s, exec i s = .next (s.mapStore f) := by
  simp only [List.mem_cons, List.not_mem_nil, or_false] at hi
  obtain rfl | rfl | rfl := hi
  · exact ⟨_, exec_clearAllBits_eq_mapStore⟩
  · exact ⟨_, exec_setAllBits_eq_mapStore⟩
  · exact ⟨_, exec_flipAllBits_eq_mapStore⟩

/-- R137, R142, R147: the whole-buffer commands read the store alone. -/
theorem wholeBuffer_sameEffect {i : Instr} (hi : i ∈ [Instr.clearAllBits, Instr.setAllBits, Instr.flipAllBits])
    (hbuf : s'.bufLen = s.bufLen) (hmem : s'.mem = s.mem) : SameEffect State.setMem i s s' := by
  obtain ⟨f, hf⟩ := exists_exec_mapStore hi
  refine .inl ⟨_, hf s, ?_⟩
  rw [hf, State.mapStore, hbuf, hmem]

/-- R161, R162: an integer read reads OFFSET, COUNT, the store and the length of VBUF; it puts its elements over the
entries as they stand. -/
theorem readCommand_sameEffect {w : Width} (e : ByteOrder) (hrange : s'.vectorRange w.bytes = s.vectorRange w.bytes)
    (hbuf : s'.bufLen = s.bufLen) (hmem : s'.mem = s.mem) (hvbuf : s'.vbuf = s.vbuf) :
    SameEffect State.setVbuf (readCommand w e) s s' := by
  obtain ⟨a, n, hready, hok⟩ | ⟨c, -, herr⟩ := s.vectorRange_cases w.bytes
  · have hle : a + n * w.bytes ≤ s'.bufLen := hbuf ▸ hready.range_le
    have hn : 0 + n ≤ s'.vbuf.length := by rw [hvbuf, Nat.zero_add]; exact hready.count_le
    have hloaded : s'.vbufLoaded w e s'.vbuf a 0 n = s.vbufLoaded w e s.vbuf a 0 n := by
      rw [State.vbufLoaded_congr hmem, hvbuf]
    refine .inl ⟨_, exec_readCommand_ready e hready, ?_⟩
    simp [exec_readCommand, State.readVector, hrange, hok, State.loadElements_inside hle hn, hloaded, State.setVbuf]
  · exact .inr ⟨c, (VectorCommand.read w e).exec_of_vectorRange herr,
      (VectorCommand.read w e).exec_of_vectorRange (hrange.trans herr)⟩

/-- R163, R164: an integer write reads OFFSET, COUNT, the store, the length of VBUF and the entries below COUNT. -/
theorem writeCommand_sameEffect {w : Width} (e : ByteOrder) (hrange : s'.vectorRange w.bytes = s.vectorRange w.bytes)
    (hentries : ∀ a n, s.VectorReady w.bytes a n → s'.vectorOperand n = s.vectorOperand n)
    (hbuf : s'.bufLen = s.bufLen) (hmem : s'.mem = s.mem) :
    SameEffect State.setMem (writeCommand w e) s s' := by
  obtain ⟨a, n, hready, hok⟩ | ⟨c, -, herr⟩ := s.vectorRange_cases w.bytes
  · have hentries := hentries a n hready
    obtain ⟨vs, rfl, hv, hvs⟩ | herr := s.vectorOperand_cases hready.count_le
    · have hle : a + vs.length * w.bytes ≤ s'.bufLen := hbuf ▸ hready.range_le
      refine .inl ⟨_, exec_writeCommand_ready e hready hv, ?_⟩
      simp [exec_writeCommand, State.writeVector, hrange, hok, hentries, hvs, State.storeElements_inside hle, hmem]
    · refine .inr ⟨.uninitializedOperand, ?_, ?_⟩
      · simp [exec_writeCommand, State.writeVector, hok, herr]
      · simp [exec_writeCommand, State.writeVector, hrange, hok, hentries, herr]
  · exact .inr ⟨c, (VectorCommand.write w e).exec_of_vectorRange herr,
      (VectorCommand.write w e).exec_of_vectorRange (hrange.trans herr)⟩

/-- R181, R182: WRITE_BYTES reads the same. -/
theorem writeBytes_sameEffect (hrange : s'.vectorRange 1 = s.vectorRange 1)
    (hentries : ∀ a n, s.VectorReady 1 a n → s'.vectorOperand n = s.vectorOperand n)
    (hbuf : s'.bufLen = s.bufLen) (hmem : s'.mem = s.mem) : SameEffect State.setMem .writeBytes s s' := by
  obtain ⟨a, n, hready, hok⟩ | ⟨c, -, herr⟩ := s.vectorRange_cases 1
  · have hentries := hentries a n hready
    obtain ⟨vs, rfl, hv, hvs⟩ | herr := s.vectorOperand_cases hready.count_le
    · have hle : a + vs.length ≤ s'.bufLen := by
        have hrange := hready.range_le
        omega
      refine .inl ⟨_, execWriteBytes_ready hready hv, ?_⟩
      simp [exec, execWriteBytes, hrange, hok, hentries, hvs, State.copyBytes_inside hle, hmem]
    · refine .inr ⟨.uninitializedOperand, ?_, ?_⟩
      · simp [exec, execWriteBytes, hok, herr]
      · simp [exec, execWriteBytes, hrange, hok, hentries, herr]
  · exact .inr ⟨c, VectorCommand.writeBytes.exec_of_vectorRange herr,
      VectorCommand.writeBytes.exec_of_vectorRange (hrange.trans herr)⟩

end Reads

/-! ### The operands a command does not read, clause by clause -/

def State.withOffset (s : State) (off : Option Word) : State := { s with offset := off }

def State.withCount (s : State) (cnt : Option Word) : State := { s with count := cnt }

def State.withData (s : State) (d : Option Word) : State := { s with data := d }

def State.withAcc (s : State) (v : Option Word) : State := { s with acc := v }

/-- A change `g` of the state, such as one of DATA or ACC, that the checks on a bit and on a vector do not see and that is
apart from the store, VBUF and the fault record. -/
structure ApartFromAddresses (g : State → State) : Prop where
  bitOperand : ∀ s, (g s).bitOperand = s.bitOperand
  vectorRange : ∀ s B, (g s).vectorRange B = s.vectorRange B
  bufLen : ∀ s, (g s).bufLen = s.bufLen
  mem : ∀ s, (g s).mem = s.mem
  vbuf : ∀ s, (g s).vbuf = s.vbuf
  setMem : ∀ s m, (g s).setMem m = g (s.setMem m)
  setVbuf : ∀ s vb, (g s).setVbuf vb = g (s.setVbuf vb)
  takeFault : ∀ s c, (g s).takeFault c = g (s.takeFault c)

theorem apartFromAddresses_withData (d : Option Word) : ApartFromAddresses (State.withData · d) :=
  ⟨fun _ => rfl, fun _ _ => rfl, fun _ => rfl, fun _ => rfl, fun _ => rfl, fun _ _ => rfl, fun _ _ => rfl,
    fun _ _ => rfl⟩

theorem apartFromAddresses_withAcc (v : Option Word) : ApartFromAddresses (State.withAcc · v) :=
  ⟨fun _ => rfl, fun _ _ => rfl, fun _ => rfl, fun _ => rfl, fun _ => rfl, fun _ _ => rfl, fun _ _ => rfl,
    fun _ _ => rfl⟩

section Clauses

variable {i : Instr} {s t : State}

/-- The commands that read neither DATA nor ACC and write neither, all but READ_BITS, SET_BITS and READ_BIT. -/
theorem exec_of_apartFromAddresses {g : State → State} (hg : ApartFromAddresses g)
    (hi : i ∉ [Instr.readBits, Instr.setBits, Instr.readBit]) (h : exec i s = .next t) : exec i (g s) = .next (g t) := by
  have hops := hg.bitOperand s
  have hbuf := hg.bufLen s
  have hmem := hg.mem s
  have hfault := hg.takeFault s
  have hentries (n : Nat) : (g s).vectorOperand n = s.vectorOperand n := by simp only [State.vectorOperand, hg.vbuf]
  induction i using instr_family_cases with
  | readBits | setBits | readBit => simp at hi
  | setBit | clearBit =>
    exact SameEffect.commutes g h (writeBit_sameEffect (by simp) hops hbuf hmem) (hg.setMem s) hfault
  | clearAllBits | setAllBits | flipAllBits =>
    exact SameEffect.commutes g h (wholeBuffer_sameEffect (by simp) hbuf hmem) (hg.setMem s) hfault
  | read w e =>
    exact SameEffect.commutes g h (readCommand_sameEffect e (hg.vectorRange s _) hbuf hmem (hg.vbuf s)) (hg.setVbuf s)
      hfault
  | write w e =>
    exact SameEffect.commutes g h (writeCommand_sameEffect e (hg.vectorRange s _) (fun _ n _ => hentries n) hbuf hmem)
      (hg.setMem s) hfault
  | writeBytes =>
    exact SameEffect.commutes g h (writeBytes_sameEffect (hg.vectorRange s _) (fun _ n _ => hentries n) hbuf hmem)
      (hg.setMem s) hfault

theorem exec_ignores_data (hi : i ≠ .setBits) (h : exec i s = .next t) (d : Option Word) :
    exec i (s.withData d) = .next (t.withData d) := by
  by_cases hapart : i ∈ [Instr.readBits, Instr.setBits, Instr.readBit]
  · have hreads : i = .readBits ∨ i = .readBit := by simpa [hi] using hapart
    obtain rfl | rfl := hreads
    · exact SameEffect.commutes (State.withData · d) h (readBits_sameEffect rfl rfl rfl)
    · exact SameEffect.commutes (State.withData · d) h (readBit_sameEffect rfl rfl rfl)
  · exact exec_of_apartFromAddresses (apartFromAddresses_withData d) hapart h

theorem exec_ignores_acc (hi : i ≠ .readBits) (hi' : i ≠ .readBit) (h : exec i s = .next t) (v : Option Word) :
    exec i (s.withAcc v) = .next (t.withAcc v) := by
  by_cases hapart : i ∈ [Instr.readBits, Instr.setBits, Instr.readBit]
  · obtain rfl : i = .setBits := by simpa [hi, hi'] using hapart
    exact SameEffect.commutes (State.withAcc · v) h (setBits_sameEffect rfl rfl rfl)
  · exact exec_of_apartFromAddresses (apartFromAddresses_withAcc v) hapart h

/-- R122: READ_BIT replaces ACC when its checks pass. -/
theorem exec_readBit_replaces_acc {k : Nat} (hready : s.BitReady k) (h : exec .readBit s = .next t) (v : Option Word) :
    exec .readBit (s.withAcc v) = .next t := by
  rw [← h]
  exact (execReadBit_ready (s := s.withAcc v) hready).trans (execReadBit_ready hready).symm

/-- R208: READ_BIT leaves ACC when a check fails. -/
theorem exec_readBit_keeps_acc (hready : ¬∃ k, s.BitReady k) (h : exec .readBit s = .next t) (v : Option Word) :
    exec .readBit (s.withAcc v) = .next (t.withAcc v) := by
  obtain ⟨k, hk, -⟩ | ⟨c, -, herr⟩ := s.bitOperand_cases
  · exact absurd ⟨k, hk⟩ hready
  · obtain rfl := Host.Outcome.next.inj (h.symm.trans (exec_of_bitOperand (by simp) herr))
    exact exec_of_bitOperand (s := s.withAcc v) (by simp) herr

theorem exec_ignores_count (hi : i ∈ [Instr.readBit, Instr.setBit, Instr.clearBit, Instr.clearAllBits,
    Instr.setAllBits, Instr.flipAllBits]) (h : exec i s = .next t) (cnt : Option Word) :
    exec i (s.withCount cnt) = .next (t.withCount cnt) := by
  simp only [List.mem_cons, List.not_mem_nil, or_false] at hi
  obtain rfl | rfl | rfl | hi := hi
  · exact SameEffect.commutes (State.withCount · cnt) h (readBit_sameEffect rfl rfl rfl)
  · exact SameEffect.commutes (State.withCount · cnt) h (writeBit_sameEffect (by simp) rfl rfl rfl)
  · exact SameEffect.commutes (State.withCount · cnt) h (writeBit_sameEffect (by simp) rfl rfl rfl)
  · exact SameEffect.commutes (State.withCount · cnt) h (wholeBuffer_sameEffect (by simpa using hi) rfl rfl)

theorem exec_ignores_offset (hi : i ∈ [Instr.clearAllBits, Instr.setAllBits, Instr.flipAllBits])
    (h : exec i s = .next t) (off : Option Word) : exec i (s.withOffset off) = .next (t.withOffset off) :=
  SameEffect.commutes (State.withOffset · off) h (wholeBuffer_sameEffect hi rfl rfl)

theorem exec_ignores_vbuf (hi : i ∈ [Instr.readBits, Instr.setBits, Instr.readBit, Instr.setBit, Instr.clearBit,
    Instr.clearAllBits, Instr.setAllBits, Instr.flipAllBits]) (h : exec i s = .next t) (vb : List (Option Word)) :
    exec i (s.setVbuf vb) = .next (t.setVbuf vb) := by
  simp only [List.mem_cons, List.not_mem_nil, or_false] at hi
  obtain rfl | rfl | rfl | rfl | rfl | hi := hi
  · exact SameEffect.commutes (State.setVbuf · vb) h (readBits_sameEffect rfl rfl rfl)
  · exact SameEffect.commutes (State.setVbuf · vb) h (setBits_sameEffect rfl rfl rfl)
  · exact SameEffect.commutes (State.setVbuf · vb) h (readBit_sameEffect rfl rfl rfl)
  · exact SameEffect.commutes (State.setVbuf · vb) h (writeBit_sameEffect (by simp) rfl rfl rfl)
  · exact SameEffect.commutes (State.setVbuf · vb) h (writeBit_sameEffect (by simp) rfl rfl rfl)
  · exact SameEffect.commutes (State.setVbuf · vb) h (wholeBuffer_sameEffect (by simpa using hi) rfl rfl)

/-- R162: an integer read over other entries gives the same elements below COUNT and leaves the rest alone. -/
theorem exec_readCommand_ignores_entries {w : Width} {e : ByteOrder} (h : exec (readCommand w e) s = .next t)
    {vb : List (Option Word)} (hvb : vb.length = s.vbuf.length) :
    ∃ u, exec (readCommand w e) (s.setVbuf vb) = .next u ∧ u = t.setVbuf u.vbuf ∧
      ∀ j : Nat, u.vbuf[j]? = t.vbuf[j]? ∨ (u.vbuf[j]? = vb[j]? ∧ t.vbuf[j]? = s.vbuf[j]?) := by
  obtain ⟨a, n, hready, -⟩ | ⟨c, -, herr⟩ := s.vectorRange_cases w.bytes
  · obtain ⟨t', ht, hframe, -, hinside, houtside⟩ := exec_readCommand_loads e hready
    obtain rfl := Host.Outcome.next.inj (h.symm.trans ht)
    obtain ⟨u, hu, hframe', -, hinside', houtside'⟩ := exec_readCommand_loads e (hready.setVbuf hvb)
    refine ⟨u, hu, by rw [hframe]; exact hframe', fun j => ?_⟩
    by_cases hj : j < n
    · exact .inl ((hinside' j hj).trans (hinside j hj).symm)
    · exact .inr ⟨houtside' j (by omega), houtside j (by omega)⟩
  · have herr' := (State.vectorRange_vbuf hvb w.bytes).trans herr
    obtain rfl := Host.Outcome.next.inj (h.symm.trans ((VectorCommand.read w e).exec_of_vectorRange herr))
    exact ⟨_, (VectorCommand.read w e).exec_of_vectorRange herr', rfl, fun j => .inr ⟨rfl, rfl⟩⟩

/-- R163 (5), R181 (5): the check on the entries sees those below COUNT. -/
theorem State.vectorOperand_of_entries_eq {B a n : Nat} {vb : List (Option Word)} (hready : s.VectorReady B a n)
    (h : ∀ cnt : Word, s.count = some cnt → ∀ j : Nat, (j : Int) < cnt.toInt → vb[j]? = s.vbuf[j]?) :
    (s.setVbuf vb).vectorOperand n = s.vectorOperand n := by
  obtain ⟨off, cnt, -, hc, -, hn, -, -⟩ := hready
  have htake : vb.take n = s.vbuf.take n := by
    refine List.ext_getElem? fun j => ?_
    rw [List.getElem?_take, List.getElem?_take]
    split
    · exact h cnt hc j (by omega)
    · rfl
  simp only [State.vectorOperand, State.setVbuf_vbuf, htake]

theorem exec_ignores_entries_from_count (hi : (∃ w e, i = writeCommand w e) ∨ i = .writeBytes)
    (h : exec i s = .next t) {vb : List (Option Word)} (hvb : vb.length = s.vbuf.length)
    (hentries : ∀ cnt : Word, s.count = some cnt → ∀ j : Nat, (j : Int) < cnt.toInt → vb[j]? = s.vbuf[j]?) :
    exec i (s.setVbuf vb) = .next (t.setVbuf vb) := by
  obtain ⟨w, e, rfl⟩ | rfl := hi
  · exact SameEffect.commutes (State.setVbuf · vb) h (writeCommand_sameEffect e (State.vectorRange_vbuf hvb _)
      (fun _ _ hready => State.vectorOperand_of_entries_eq hready hentries) rfl rfl)
  · exact SameEffect.commutes (State.setVbuf · vb) h (writeBytes_sameEffect (State.vectorRange_vbuf hvb _)
      (fun _ _ hready => State.vectorOperand_of_entries_eq hready hentries) rfl rfl)

end Clauses

/-- Settles O46: the eight clauses in order. -/
theorem commandsIgnoreWhatTheyDoNotRead : Obligations.CommandsIgnoreWhatTheyDoNotRead := by
  intro i s t h
  refine ⟨fun hi => exec_ignores_data hi h, fun hi hi' => exec_ignores_acc hi hi' h, ?readBit,
    fun hi => exec_ignores_count hi h, fun hi => exec_ignores_offset hi h, fun hi => exec_ignores_vbuf hi h,
    ?read, fun hi vb hvb => exec_ignores_entries_from_count (exists_writeCommand hi) h hvb⟩
  case readBit =>
    rintro rfl v
    exact ⟨fun ⟨k, hk⟩ => exec_readBit_replaces_acc hk h v, fun hk => exec_readBit_keeps_acc hk h v⟩
  case read =>
    intro hi vb hvb
    obtain ⟨w, e, rfl⟩ := exists_readCommand hi
    exact exec_readCommand_ignores_entries h hvb

end Sys2Proof.Machine

/-! PROOFS. Running a command twice (R71): what a write leaves does not depend on what it found, so a second one leaves
the same memory, in its one canonical form. -/

namespace Sys2Proof.Machine

/-! ### Writing the same thing twice -/

/-- A write `f` that gives each byte a value of its own or leaves it alone, done twice. -/
theorem Memory.write_twice {n : Nat} {f : Memory → Memory} (hreach : ∀ m, Memory.Reaches n m (f m)) {m : Memory}
    (hwf : Memory.wf m = true)
    (h : ∀ a, (∃ b, ∀ m, Memory.read (f m) a = b) ∨ ∀ m, Memory.read (f m) a = Memory.read m a) : f (f m) = f m := by
  refine Memory.ext ((hreach _).wf ((hreach m).wf hwf)) ((hreach m).wf hwf) fun a => ?_
  obtain ⟨b, hb⟩ | hkeep := h a
  · rw [hb, hb]
  · exact hkeep (f m)

/-- The same of a write that is known by what it does to each bit. -/
theorem Memory.writeBits_twice {s : State} {n : Nat} {f : Memory → Memory} (hreach : ∀ m, Memory.Reaches n m (f m))
    {m : Memory} (hwf : Memory.wf m = true)
    (h : ∀ k, (∃ v, ∀ m, (s.setMem (f m)).bitAt k = v) ∨ ∀ m, (s.setMem (f m)).bitAt k = (s.setMem m).bitAt k) :
    f (f m) = f m := by
  refine Memory.ext ((hreach _).wf ((hreach m).wf hwf)) ((hreach m).wf hwf) fun a => ?_
  refine State.byteAt_of_bitAt (s := s.setMem (f (f m))) (t := s.setMem (f m)) fun j _ => ?_
  obtain ⟨v, hv⟩ | hkeep := h (8 * a + j)
  · rw [hv, hv]
  · exact hkeep (f m)

section Twice

variable {s : State} (hwf : Memory.wf s.mem = true)
include hwf

theorem Memory.writeField_twice {k n : Nat} (h : k + n ≤ 8 * s.bufLen) (d : Word) :
    Memory.writeField (Memory.writeField s.mem k n d) k n d = Memory.writeField s.mem k n d := by
  refine Memory.writeBits_twice (s := s) (fun m => Memory.writeField_reaches m h d) hwf fun k' => ?_
  by_cases hk' : k ≤ k' ∧ k' < k + n
  · exact .inl ⟨_, fun m => ((s.setMem m).bitAt_writeField k n d k').trans (if_pos hk')⟩
  · exact .inr fun m => ((s.setMem m).bitAt_writeField k n d k').trans (if_neg hk')

theorem Memory.writeBit_twice {k : Nat} (h : k < 8 * s.bufLen) (v : Bool) :
    Memory.writeBit (Memory.writeBit s.mem k v) k v = Memory.writeBit s.mem k v := by
  refine Memory.writeBits_twice (f := fun m => Memory.writeBit m k v) (s := s)
    (fun m => Memory.writeBit_reaches m h v) hwf fun k' => ?_
  by_cases hk' : k' = k
  · exact .inl ⟨_, fun m => ((s.setMem m).bitAt_writeBit k k' v).trans (if_pos hk')⟩
  · exact .inr fun m => ((s.setMem m).bitAt_writeBit k k' v).trans (if_neg hk')

theorem State.mapStore_twice_of_const (b : Byte) :
    (s.mapStore fun _ => b).mapStore (fun _ => b) = s.mapStore fun _ => b := by
  refine congrArg s.setMem (Memory.write_twice (fun m => Memory.mapBelow_reaches (fun _ => b) m le_rfl) hwf fun a => ?_)
  by_cases ha : a < s.bufLen
  · exact .inl ⟨_, fun m => (Memory.read_mapBelow (fun _ => b) s.bufLen m a).trans (if_pos ha)⟩
  · exact .inr fun m => (Memory.read_mapBelow (fun _ => b) s.bufLen m a).trans (if_neg ha)

theorem Memory.writeBytes_twice {a : Nat} {bs : List Byte} (h : a + bs.length ≤ s.bufLen) :
    Memory.writeBytes (Memory.writeBytes s.mem a bs) a bs = Memory.writeBytes s.mem a bs := by
  refine Memory.write_twice (f := fun m => Memory.writeBytes m a bs) (fun m => Memory.writeBytes_reaches m h) hwf
    fun a' => ?_
  by_cases ha' : a ≤ a' ∧ a' < a + bs.length
  · exact .inl ⟨_, fun m => (Memory.read_writeBytes m a a' bs).trans (if_pos ha')⟩
  · exact .inr fun m => (Memory.read_writeBytes m a a' bs).trans (if_neg ha')

theorem Memory.storeVector_twice {w : Width} (e : ByteOrder) {a : Nat} {vs : List Word}
    (h : a + vs.length * w.bytes ≤ s.bufLen) :
    Memory.storeVector (Memory.storeVector s.mem w e a vs) w e a vs = Memory.storeVector s.mem w e a vs := by
  refine Memory.write_twice (f := fun m => Memory.storeVector m w e a vs) (fun m => Memory.storeVector_reaches m h) hwf
    fun a' => ?_
  by_cases ha' : a' < a ∨ a + vs.length * w.bytes ≤ a'
  · exact .inr fun m => Memory.read_storeVector_outside m w e a vs ha'
  · obtain ⟨i, rfl⟩ : ∃ i, a' = a + i := ⟨a' - a, by omega⟩
    have hj : i / w.bytes < vs.length := Nat.div_lt_of_lt_mul (by rw [mul_comm]; omega)
    have hi : i % w.bytes < w.bytes := Nat.mod_lt _ w.bytes_pos
    have hplace : a + i = a + i / w.bytes * w.bytes + i % w.bytes := by rw [Nat.add_assoc, Nat.div_add_mod']
    rw [hplace]
    exact .inl ⟨_, fun m => Memory.read_storeVector_inside m w e a vs hj hi⟩

end Twice

/-- R162: an integer read leaves its own elements where it finds them. -/
theorem State.vbufLoaded_twice (s : State) (w : Width) (e : ByteOrder) {vb : List (Option Word)} (a : Nat) {n : Nat}
    (h : n ≤ vb.length) :
    s.vbufLoaded w e (s.vbufLoaded w e vb a 0 n) a 0 n = s.vbufLoaded w e vb a 0 n := by
  refine List.ext_getElem? fun j => ?_
  rw [State.vbufLoaded_getElem? _ _ _ _ _ _ _ _ (by rw [State.vbufLoaded_length]; omega),
    State.vbufLoaded_getElem? _ _ _ _ _ _ _ _ (by omega)]
  split <;> rfl

/-! ### The second run -/

section Repeat

variable {s t : State}

theorem exec_setBits_repeats (hwf : Memory.wf s.mem = true) (h : exec .setBits s = .next t) :
    exec .setBits t = .next t := by
  obtain ⟨k, n, data, hready, hdata, hok⟩ | ⟨c, -, hfault⟩ := execSetBits_cases s
  · obtain rfl := Host.Outcome.next.inj (h.symm.trans hok)
    have hagain := execSetBits_ready (s := s.setMem (Memory.writeField s.mem k n data)) hready hdata
    rwa [State.setMem_mem, Memory.writeField_twice hwf hready.range_le, State.setMem_setMem] at hagain
  · obtain rfl := Host.Outcome.next.inj (h.symm.trans hfault)
    exact SameEffect.repeats h (setBits_sameEffect rfl rfl rfl)

theorem exec_readBit_repeats (h : exec .readBit s = .next t) : exec .readBit t = .next t := by
  obtain ⟨k, -, hok⟩ | ⟨c, -, hfault⟩ := execReadBit_cases s
  · obtain rfl := Host.Outcome.next.inj (h.symm.trans hok)
    exact SameEffect.repeats h (readBit_sameEffect rfl rfl rfl)
  · obtain rfl := Host.Outcome.next.inj (h.symm.trans hfault)
    exact SameEffect.repeats h (readBit_sameEffect rfl rfl rfl)

/-- SET_BIT and CLEAR_BIT, each with the bit `v` it writes. -/
theorem exec_writeBit_repeats {i : Instr} (hi : i = .setBit ∨ i = .clearBit) (v : Bool)
    (hexec : ∀ (u : State) (k : Nat), u.BitReady k → exec i u = .next (u.setMem (Memory.writeBit u.mem k v)))
    (hwf : Memory.wf s.mem = true) (h : exec i s = .next t) : exec i t = .next t := by
  obtain ⟨k, hready, -⟩ | ⟨c, -, herr⟩ := s.bitOperand_cases
  · obtain rfl := Host.Outcome.next.inj (h.symm.trans (hexec s k hready))
    have hagain := hexec (s.setMem (Memory.writeBit s.mem k v)) k hready
    rwa [State.setMem_mem, Memory.writeBit_twice hwf hready.offset_lt, State.setMem_setMem] at hagain
  · have hone : i ∈ [Instr.readBit, .setBit, .clearBit] := by simpa using Or.inr hi
    obtain rfl := Host.Outcome.next.inj (h.symm.trans (exec_of_bitOperand hone herr))
    exact SameEffect.repeats h (writeBit_sameEffect hi rfl rfl rfl)

theorem exec_const_mapStore_repeats {i : Instr} {b : Byte} (hexec : ∀ u, exec i u = .next (u.mapStore fun _ => b))
    (hwf : Memory.wf s.mem = true) (h : exec i s = .next t) : exec i t = .next t := by
  obtain rfl := Host.Outcome.next.inj (h.symm.trans (hexec s))
  rw [hexec, State.mapStore_twice_of_const hwf]

theorem exec_readCommand_repeats {w : Width} {e : ByteOrder} (h : exec (readCommand w e) s = .next t) :
    exec (readCommand w e) t = .next t := by
  obtain ⟨a, n, hready, -⟩ | ⟨c, -, herr⟩ := s.vectorRange_cases w.bytes
  · obtain rfl := Host.Outcome.next.inj (h.symm.trans (exec_readCommand_ready e hready))
    rw [exec_readCommand_ready e (hready.setVbuf (s.vbufLoaded_length w e s.vbuf a 0 n)), State.vbufLoaded_setVbuf,
      State.setVbuf_vbuf, s.vbufLoaded_twice w e a hready.count_le, State.setVbuf_setVbuf]
  · obtain rfl := Host.Outcome.next.inj (h.symm.trans ((VectorCommand.read w e).exec_of_vectorRange herr))
    exact SameEffect.repeats h (readCommand_sameEffect e rfl rfl rfl rfl)

theorem exec_writeCommand_repeats {w : Width} {e : ByteOrder} (hwf : Memory.wf s.mem = true)
    (h : exec (writeCommand w e) s = .next t) : exec (writeCommand w e) t = .next t := by
  obtain ⟨a, vs, hready, hv, -⟩ | ⟨c, -, hfault⟩ := s.writeVector_cases w e
  · obtain rfl := Host.Outcome.next.inj (h.symm.trans (exec_writeCommand_ready e hready hv))
    have hagain := exec_writeCommand_ready (s := s.setMem (Memory.storeVector s.mem w e a vs)) e hready hv
    rwa [State.setMem_mem, Memory.storeVector_twice hwf e hready.range_le, State.setMem_setMem] at hagain
  · obtain rfl := Host.Outcome.next.inj (h.symm.trans ((exec_writeCommand w e s).trans hfault))
    exact SameEffect.repeats h (writeCommand_sameEffect e rfl (fun _ _ _ => rfl) rfl rfl)

theorem exec_writeBytes_repeats (hwf : Memory.wf s.mem = true) (h : exec .writeBytes s = .next t) :
    exec .writeBytes t = .next t := by
  obtain ⟨a, vs, hready, hv, hok⟩ | ⟨c, -, hfault⟩ := execWriteBytes_cases s
  · obtain rfl := Host.Outcome.next.inj (h.symm.trans hok)
    have hle : a + (vs.map fun v => v.setWidth 8).length ≤ s.bufLen := by
      have hrange := hready.range_le
      rw [List.length_map]
      omega
    have hagain :=
      execWriteBytes_ready (s := s.setMem (Memory.writeBytes s.mem a (vs.map fun v => v.setWidth 8))) hready hv
    rwa [State.setMem_mem, Memory.writeBytes_twice hwf hle, State.setMem_setMem] at hagain
  · obtain rfl := Host.Outcome.next.inj (h.symm.trans hfault)
    exact SameEffect.repeats h (writeBytes_sameEffect rfl (fun _ _ _ => rfl) rfl rfl)

end Repeat

/-- Settles O47: family by family. -/
theorem commandsRepeatWithoutEffect : Obligations.CommandsRepeatWithoutEffect := by
  intro i s t hreadBits hflip hwf h
  induction i using instr_family_cases with
  | readBits => exact absurd rfl hreadBits
  | flipAllBits => exact absurd rfl hflip
  | setBits => exact exec_setBits_repeats hwf h
  | readBit => exact exec_readBit_repeats h
  | setBit => exact exec_writeBit_repeats (.inl rfl) true (fun _ _ => execSetBit_ready) hwf h
  | clearBit => exact exec_writeBit_repeats (.inr rfl) false (fun _ _ => execClearBit_ready) hwf h
  | clearAllBits => exact exec_const_mapStore_repeats exec_clearAllBits_eq_mapStore hwf h
  | setAllBits => exact exec_const_mapStore_repeats exec_setAllBits_eq_mapStore hwf h
  | read w e => exact exec_readCommand_repeats h
  | write w e => exact exec_writeCommand_repeats hwf h
  | writeBytes => exact exec_writeBytes_repeats hwf h

end Sys2Proof.Machine
